-- ==== Sys2Proof/Word.lean ====
section
/-! DEFINITION. The word types of the machine (spec/00_scope.md R10) and nothing else. -/

namespace Sys2Proof

/-- A `V[i]`, a timer or a memory byte: 8 bits, unsigned (R10). -/
abbrev Byte := BitVec 8

/-- `I`, `pc`, a return address or an instruction word: 16 bits, unsigned (R10, R80). -/
abbrev Word := BitVec 16

/-- The number of a general register, V0 to VF (R21): the X and Y fields of R82. -/
abbrev Reg := Fin 16

/-- VF, the flag register, is `V[15]` (R9, R22). -/
abbrev VF : Reg := 15

end Sys2Proof
end

