-- ==== Sys2Proof/Syntax.lean ====
section
/-! DEFINITION. The instructions: one constructor per row of spec/opcode_table.json (spec/30_encoding.md R84),
in the table's order. Operand widths are those of the fields of R82. -/

namespace Sys2Proof

/-- The 34 patterns of R84. `x` and `y` number general registers, `nn` is an 8-bit immediate, `nnn` a 12-bit
address, `n` a row count. -/
inductive Instr where
  /-- `00E0` CLS (R150). -/
  | cls
  /-- `00EE` RET (R104). -/
  | ret
  /-- `1nnn` JP nnn (R105). -/
  | jp (nnn : BitVec 12)
  /-- `2nnn` CALL nnn (R103). -/
  | call (nnn : BitVec 12)
  /-- `3xnn` SE Vx, nn (R106). -/
  | seImm (x : Reg) (nn : Byte)
  /-- `4xnn` SNE Vx, nn (R107). -/
  | sneImm (x : Reg) (nn : Byte)
  /-- `5xy0` SE Vx, Vy (R108). -/
  | seReg (x y : Reg)
  /-- `6xnn` LD Vx, nn (R120). -/
  | ldImm (x : Reg) (nn : Byte)
  /-- `7xnn` ADD Vx, nn (R121). -/
  | addImm (x : Reg) (nn : Byte)
  /-- `8xy0` LD Vx, Vy (R122). -/
  | ldReg (x y : Reg)
  /-- `8xy1` OR Vx, Vy (R123). -/
  | orReg (x y : Reg)
  /-- `8xy2` AND Vx, Vy (R124). -/
  | andReg (x y : Reg)
  /-- `8xy3` XOR Vx, Vy (R125). -/
  | xorReg (x y : Reg)
  /-- `8xy4` ADD Vx, Vy (R126). -/
  | addReg (x y : Reg)
  /-- `8xy5` SUB Vx, Vy (R127). -/
  | sub (x y : Reg)
  /-- `8xy6` SHR Vx (R128); the Y field is part of the word and has no effect (R85). -/
  | shr (x y : Reg)
  /-- `8xy7` SUBN Vx, Vy (R129). -/
  | subn (x y : Reg)
  /-- `8xyE` SHL Vx (R130); the Y field is part of the word and has no effect (R85). -/
  | shl (x y : Reg)
  /-- `9xy0` SNE Vx, Vy (R109). -/
  | sneReg (x y : Reg)
  /-- `Annn` LD I, nnn (R140). -/
  | ldI (nnn : BitVec 12)
  /-- `Bnnn` JP V0, nnn (R111). -/
  | jpV0 (nnn : BitVec 12)
  /-- `Cxnn` RND Vx, nn (R131). -/
  | rnd (x : Reg) (nn : Byte)
  /-- `Dxyn` DRW Vx, Vy, n (R151). -/
  | drw (x y : Reg) (n : BitVec 4)
  /-- `Ex9E` SKP Vx (R170). -/
  | skp (x : Reg)
  /-- `ExA1` SKNP Vx (R171). -/
  | sknp (x : Reg)
  /-- `Fx07` LD Vx, DT (R161). -/
  | ldVxDt (x : Reg)
  /-- `Fx0A` LD Vx, K (R172). -/
  | ldVxK (x : Reg)
  /-- `Fx15` LD DT, Vx (R162). -/
  | ldDtVx (x : Reg)
  /-- `Fx18` LD ST, Vx (R163). -/
  | ldStVx (x : Reg)
  /-- `Fx1E` ADD I, Vx (R141). -/
  | addI (x : Reg)
  /-- `Fx29` LD F, Vx (R142). -/
  | ldF (x : Reg)
  /-- `Fx33` LD B, Vx (R143). -/
  | ldB (x : Reg)
  /-- `Fx55` LD [I], Vx (R144). -/
  | stRegs (x : Reg)
  /-- `Fx65` LD Vx, [I] (R145). -/
  | ldRegs (x : Reg)
  deriving DecidableEq, Repr

end Sys2Proof
end

