-- ==== Sys2Proof/Config.lean ====
section
/-! DEFINITION. The constants of spec/00_scope.md R5, the default of the FONT parameter (R54) and the free
byte of `Cxnn` (R6, R131). -/

namespace Sys2Proof.Config

/-- MEM_SIZE: 4096 bytes, addresses 0x000 to 0xFFF. -/
abbrev memSize : Nat := 4096

/-- FONT_BASE: the first address of the font. -/
abbrev fontBase : Nat := 0x050

/-- FONT_SIZE: 16 glyphs of 5 bytes. -/
abbrev fontSize : Nat := 80

/-- GLYPH_SIZE: the bytes of one glyph. -/
abbrev glyphSize : Nat := 5

/-- PROG_BASE: where load writes, and the reset value of pc. -/
abbrev progBase : Nat := 0x200

/-- PROG_MAX: the longest program, 4096 − 0x200 bytes. -/
abbrev progMax : Nat := 3584

/-- The highest address an instruction can be fetched from (R58). -/
abbrev lastFetch : Nat := 0x0FFE

/-- STACK_DEPTH: 16 return addresses. -/
abbrev stackDepth : Nat := 16

/-- FB_W: the columns of the framebuffer. -/
abbrev fbWidth : Nat := 64

/-- FB_H: the rows of the framebuffer. -/
abbrev fbHeight : Nat := 32

/-- FB_W × FB_H: the cells of the framebuffer. -/
abbrev fbCells : Nat := 2048

/-- The default of the parameter FONT: the table of spec/20_memory.md R54, which the spec marks as general
knowledge. PRESUMED, notes/assumptions/1.md: only `State.reset` takes it, and every statement quantifies over
the FONT that a state carries. -/
def defaultFont : Vector Byte 80 :=
  (#v[0xF0, 0x90, 0x90, 0x90, 0xF0,  0x20, 0x60, 0x20, 0x20, 0x70] : Vector Byte 10) ++
  (#v[0xF0, 0x10, 0xF0, 0x80, 0xF0,  0xF0, 0x10, 0xF0, 0x10, 0xF0] : Vector Byte 10) ++
  (#v[0x90, 0x90, 0xF0, 0x10, 0x10,  0xF0, 0x80, 0xF0, 0x10, 0xF0] : Vector Byte 10) ++
  (#v[0xF0, 0x80, 0xF0, 0x90, 0xF0,  0xF0, 0x10, 0x20, 0x40, 0x40] : Vector Byte 10) ++
  (#v[0xF0, 0x90, 0xF0, 0x90, 0xF0,  0xF0, 0x90, 0xF0, 0x10, 0xF0] : Vector Byte 10) ++
  (#v[0xF0, 0x90, 0xF0, 0x90, 0x90,  0xE0, 0x90, 0xE0, 0x90, 0xE0] : Vector Byte 10) ++
  (#v[0xF0, 0x80, 0x80, 0x80, 0xF0,  0xE0, 0x90, 0x90, 0x90, 0xE0] : Vector Byte 10) ++
  (#v[0xF0, 0x80, 0xF0, 0x80, 0xF0,  0xF0, 0x80, 0xF0, 0x80, 0x80] : Vector Byte 10)

/-- The free byte `rnd` of R6 and R131: the byte of the `n`-th draw. It has no body, so nothing can be proved
of its value and every theorem holds for every sequence of draws (notes/assumptions/2.md). -/
opaque rnd : Nat → Byte

end Sys2Proof.Config
end

