-- ==== Sys2Proof/Machine/State.lean ====
section
/-! DEFINITION. The state of the machine (spec/10_state.md R20), its faults (spec/60_exceptions.md R180 to R184), its
refusals, and reset (spec/70_reset_and_hazards.md R210). Plain data only. -/

namespace Sys2Proof.Machine

/-- The 4096-byte memory of R37 and R50. `font` is the parameter FONT of R54, the content of 0x050 to 0x09F at reset
(notes/assumptions/1.md: carried here so that a statement about every state is about every FONT; no operation writes
it). `cells` lists the bytes that differ from reset, addresses strictly rising (`Memory.wf` in Machine/Ops.lean). -/
structure Memory where
  font : Vector Byte 80
  cells : List Host.Cell
  deriving DecidableEq, Repr

/-- The architectural state of R20, and two fields of the model's own: `mem.font` (see `Memory`) and `draws`. -/
structure State where
  /-- `mem[0..4095]` (R37). -/
  mem : Memory
  /-- `V[0..15]`, VF = `V[15]` (R21, R22). -/
  v : Vector Byte 16
  /-- `I`, 16 bits held (R26). -/
  i : Word
  /-- `pc` (R29). -/
  pc : Word
  /-- `stack[0..15]` (R32). -/
  stack : Vector Word 16
  /-- `sp`, 0 to 16 (R27). -/
  sp : Fin 17
  /-- `DT`, the delay timer (R28). -/
  dt : Byte
  /-- `ST`, the sound timer (R28). -/
  st : Byte
  /-- `fb[0..2047]`, 64 × 32 cells of one bit: `fb[Y * 64 + X]`, the cell at column X and row Y, is bit X of row Y
  (R34). -/
  fb : Vector (BitVec 64) 32
  /-- `keys[0..15]`, true while pressed (R36). -/
  keys : Vector Bool 16
  /-- How many free bytes `Cxnn` has drawn. The model's own field (notes/assumptions/2.md): the draw is `Config.rnd`
  of it. -/
  draws : Nat
  deriving DecidableEq, Repr

/-- The ten sub-causes of OutOfBounds, in the order of R182's table. -/
inductive SubCause where
  /-- A fetch with pc > 0x0FFE: raised by `step`. Safe: the spec's own fault. -/
  | fetch
  /-- `2nnn` with sp = 16. Safe: the spec's own fault. -/
  | stackOverflow
  /-- `00EE` with sp = 0. Safe: the spec's own fault. -/
  | stackUnderflow
  /-- `Dxyn` with I + N > 4096. Safe: the spec's own fault. -/
  | drawMemory
  /-- `Dxyn` with a set sprite bit at column > 63 or row > 31. Safe: the spec's own fault. -/
  | drawFramebuffer
  /-- `Fx33` with I + 2 > 0x0FFF. Safe: the spec's own fault. -/
  | bcdStore
  /-- `Fx55` with I + X > 0x0FFF. Safe: the spec's own fault. -/
  | blockStore
  /-- `Fx65` with I + X > 0x0FFF. Safe: the spec's own fault. -/
  | blockLoad
  /-- `Fx33` or `Fx55` with a target byte in 0x050 to 0x09F. Safe: the spec's own fault. -/
  | romWrite
  /-- `Ex9E` or `ExA1` with V[X] > 0x0F. Safe: the spec's own fault. -/
  | keypad
  deriving DecidableEq, Repr

/-- The three fault kinds of R180. A fault carries no state: whoever holds the state that faulted still holds it,
unchanged (R186). -/
inductive Fault where
  /-- R181: raised by `step` when the fetched word matches no row, with the word. Safe: the spec's own fault. -/
  | unknownInstruction (w : Word)
  /-- R182: raised by `step` or a meaning, with the sub-cause. Safe: the spec's own fault. -/
  | outOfBounds (c : SubCause)
  /-- R183: raised by `load` alone, never by a step, with the length. Safe: the spec's own fault. -/
  | loadTooLarge (len : Nat)
  deriving DecidableEq, Repr

/-- No instruction of the table is refused; the constructor stands for an instruction that has no meaning yet. -/
inductive Refusal where
  /-- Raised by an arm of `exec` with no meaning behind it (none is left). Safe: the machine stops. -/
  | notModelled (mnemonic : String)
  deriving DecidableEq, Repr

/-- R210 for a given FONT: font pre-loaded, pc at 0x200, all else zero. -/
def State.resetWith (font : Vector Byte 80) : State where
  mem := { font := font, cells := [] }
  v := Vector.replicate 16 0
  i := 0
  pc := 0x0200
  stack := Vector.replicate 16 0
  sp := 0
  dt := 0
  st := 0
  fb := Vector.replicate 32 0
  keys := Vector.replicate 16 false
  draws := 0

/-- The machine right after reset (R210), with the default FONT of R54 (notes/assumptions/1.md). -/
def State.reset : State := State.resetWith Config.defaultFont

end Sys2Proof.Machine
end

