-- ==== Sys2Proof/Machine/Ops.lean ====
section
/-! DEFINITION. The shared operations: memory (spec/20_memory.md), general registers, program counter, stack, timers,
framebuffer, the free byte, raising a fault (spec/00_scope.md R9, spec/60_exceptions.md R186), and the four steps of a
cycle (spec/40_cycle_flow_stack.md R100) except execute. -/

namespace Sys2Proof.Machine

/-- What an instruction or a step answers. -/
abbrev Result := Host.Outcome State Fault Refusal

/-- R9, R186, R187: `raise OutOfBounds(c)` ends the cycle with the fault. No state is handed on, so nothing has
changed; there is no handler, no saved register and nothing to return from. -/
def raise (c : SubCause) : Result := .fault (.outOfBounds c)

/-! ## Memory -/

/-- The address lies in the font ROM, 0x050 to 0x09F (R50). -/
def inFont (a : Nat) : Bool := decide (0x050 ≤ a) && decide (a ≤ 0x09F)

/-- What an address that `cells` does not list reads as: the reset content of R37, FONT in the font and 0x00
elsewhere. -/
def Memory.unlisted (m : Memory) (a : Nat) : Byte := if inFont a then m.font.getD (a - 0x050) 0 else 0

/-- The entry listed for an address. -/
def lookupCell : List Host.Cell → Nat → Option Byte
  | [], _ => none
  | c :: cs, a => if a = c.1 then some c.2 else lookupCell cs a

/-- `MemRead(a, 1)`: the latest write to the byte, or its reset content (R63). -/
def Memory.read (m : Memory) (a : Nat) : Byte := (lookupCell m.cells a).getD (m.unlisted a)

/-- Put byte `b` at address `a` of a rising list, `d` being what `a` reads as unlisted: writing `d` removes the
entry. -/
def setCell (d : Byte) (a : Nat) (b : Byte) : List Host.Cell → List Host.Cell
  | [] => if b = d then [] else [(a, b)]
  | c :: cs =>
    if a < c.1 then (if b = d then c :: cs else (a, b) :: c :: cs)
    else if a = c.1 then (if b = d then cs else (a, b) :: cs)
    else c :: setCell d a b cs

/-- `MemWrite(a, 1, b)`: exactly the byte written changes (R61). Callers have made the checks of R53 and R59. -/
def Memory.write (m : Memory) (a : Nat) (b : Byte) : Memory :=
  { m with cells := setCell (m.unlisted a) a b m.cells }

/-- Writes at rising addresses from `a`. -/
def Memory.writeBytes (m : Memory) (a : Nat) : List Byte → Memory
  | [] => m
  | b :: bs => (m.write a b).writeBytes (a + 1) bs

/-- The `n` bytes from `a` on, in address order. -/
def Memory.readBytes (m : Memory) (a n : Nat) : List Byte := (List.range n).map fun k => m.read (a + k)

/-- The canonical form: addresses strictly rising and below 4096, no entry equal to what its address reads as
unlisted. -/
abbrev Memory.wf (m : Memory) : Prop :=
  m.cells.Pairwise (fun c d => c.1 < d.1) ∧ ∀ c ∈ m.cells, c.1 < 4096 ∧ c.2 ≠ m.unlisted c.1

/-! ## General registers -/

/-- `V[r]`. -/
def State.readV (s : State) (r : Reg) : Byte := s.v[r.val]

/-- `V[r] <- b`. No register is hardwired (R21). -/
def State.writeV (s : State) (r : Reg) (b : Byte) : State := { s with v := s.v.set r.val b }

/-! ## Index register, program counter, stack -/

/-- `I <- a`. -/
def State.setI (s : State) (a : Word) : State := { s with i := a }

/-- `pc <- a`. -/
def State.setPc (s : State) (a : Word) : State := { s with pc := a }

/-- Step 2 of the cycle (R101), and the skip of R110: `pc <- pc + 2`. -/
def State.advance (s : State) : State := s.setPc (s.pc + 2)

/-- `if c: pc <- pc + 2`. -/
def State.skipIf (s : State) (c : Bool) : State := if c then s.advance else s

/-- R32, R103: write `stack[sp]`, then add one to `sp`; OutOfBounds(StackOverflow) with 16 entries held. -/
def State.push (s : State) (a : Word) : Result :=
  if h : s.sp.val < 16 then
    .next { s with stack := s.stack.set s.sp.val a, sp := ⟨s.sp.val + 1, by omega⟩ }
  else raise .stackOverflow

/-- R32, R104: subtract one from `sp`, then take `pc` from `stack[sp]`, which stays as it is (R33);
OutOfBounds(StackUnderflow) with no entry held. -/
def State.popPc (s : State) : Result :=
  if h : 0 < s.sp.val then
    .next { s with sp := ⟨s.sp.val - 1, by omega⟩, pc := s.stack[s.sp.val - 1] }
  else raise .stackUnderflow

/-! ## Timers -/

/-- R160: one less, and zero stays zero. -/
def decay (b : Byte) : Byte := if b = 0 then 0 else b - 1

/-- `DT <- b`. -/
def State.setDt (s : State) (b : Byte) : State := { s with dt := b }

/-- `ST <- b`. -/
def State.setSt (s : State) (b : Byte) : State := { s with st := b }

/-- Step 4 of the cycle (R102, R160): each timer that is not zero loses one. -/
def State.tick (s : State) : State := (s.setDt (decay s.dt)).setSt (decay s.st)

/-! ## Memory and framebuffer of a state -/

/-- Put a memory in place of the one the state holds. -/
def State.setMem (s : State) (m : Memory) : State := { s with mem := m }

/-- Put a framebuffer in place of the one the state holds. -/
def State.setFb (s : State) (fb : Vector (BitVec 64) 32) : State := { s with fb := fb }

/-- The cell at a (column, row) of a framebuffer; there is none outside the 64 × 32 grid. -/
def cellOf (fb : Vector (BitVec 64) 32) (cr : Nat × Nat) : Bool :=
  if h : cr.2 < 32 then fb[cr.2].getLsbD cr.1 else false

/-- R35: the cell at column `col` and row `row`, as the host reads it. -/
def State.cell (s : State) (col row : Nat) : Bool := cellOf s.fb (col, row)

/-- R34: `fb[k]`, the cells numbered row by row. -/
def State.fbAt (s : State) (k : Nat) : Bool := s.cell (k % 64) (k / 64)

/-- R34: a true toggle of the cell at a (column, row) of the grid. -/
def toggleCell (fb : Vector (BitVec 64) 32) (cr : Nat × Nat) : Vector (BitVec 64) 32 :=
  if h : cr.2 < 32 then fb.set cr.2 (fb[cr.2] ^^^ BitVec.twoPow 64 cr.1) else fb

/-- The loop of R151 over the cells to toggle: toggle each, and note whether one was set. -/
def toggleCells : List (Nat × Nat) → Vector (BitVec 64) 32 → Bool → Vector (BitVec 64) 32 × Bool
  | [], fb, hit => (fb, hit)
  | cr :: crs, fb, hit => toggleCells crs (toggleCell fb cr) (hit || cellOf fb cr)

/-! ## The free byte -/

/-- R6, R131: take the next free byte. -/
def State.draw (s : State) : Byte × State := (Config.rnd s.draws, { s with draws := s.draws + 1 })

/-! ## The cycle (R100) -/

/-- Step 1 (R56, R58): the big-endian word at pc, from any address up to 0x0FFE, odd or even (R57). -/
def State.fetch (s : State) : Option Word :=
  if s.pc.toNat ≤ 0x0FFE then some (wordOfBytes (s.mem.read s.pc.toNat) (s.mem.read (s.pc.toNat + 1))) else none

/-- Step 4 after step 3: the tick runs in every cycle that completes and in no other (R102, R164). -/
def finishCycle : Result → Result
  | .next t => .next t.tick
  | .fault r => .fault r
  | .refused r => .refused r

/-- The bytes of a word stored where the next fetch reads them (for `State.withFetchWord`); a pc past 0x0FFE has no
place for them. -/
def State.placeWord (s : State) (w : Word) : State :=
  if s.pc.toNat ≤ 0x0FFE then
    s.setMem (s.mem.writeBytes s.pc.toNat [w.extractLsb' 8 8, w.extractLsb' 0 8])
  else s

end Sys2Proof.Machine
end

