-- ==== Sys2Proof/Machine/Flags.lean ====
section
/-! DEFINITION. The flag computations of spec/10_state.md R24 and the write of VF as a flag (R22, R25). Every one is a
function of the operands before the operation (spec/41_arithmetic.md R132). -/

namespace Sys2Proof.Machine

/-- R22: a flag is written into VF as 0x01 or 0x00. -/
def flagByte (f : Bool) : Byte := if f then 0x01 else 0x00

/-- `VF <- f`, the last write of the six instructions of R24 (R25, R133). -/
def State.writeFlag (s : State) (f : Bool) : State := s.writeV VF (flagByte f)

/-- R126: the unsigned sum exceeds 255. -/
def carryFlag (a b : Byte) : Bool := decide (a.toNat + b.toNat > 255)

/-- R127, R129: `a - b` needs no borrow. -/
def noBorrowFlag (a b : Byte) : Bool := decide (a.toNat ≥ b.toNat)

/-- R128: the bit a right shift moves out. -/
def lowBitFlag (a : Byte) : Bool := a.getLsbD 0

/-- R130: the bit a left shift moves out. -/
def highBitFlag (a : Byte) : Bool := a.getLsbD 7

end Sys2Proof.Machine
end

