-- ==== Sys2Proof/Machine/Operands.lean ====
section
/-! DEFINITION. The operand forms: addresses from `NNN`, `I` and V[x], the range checks of data accesses, the sprite of
a draw, key indices, and the run V0 to Vx of a block transfer. -/

namespace Sys2Proof.Machine

/-- R82: a 12-bit address widened with zeros. -/
def zextAddr (nnn : BitVec 12) : Word := nnn.zeroExtend 16

/-- R111: NNN plus a byte, not reduced. -/
def indexedTarget (nnn : BitVec 12) (b : Byte) : Word := zextAddr nnn + b.zeroExtend 16

/-- R141: I plus a byte, modulo 4096. -/
def wrapIndex (i : Word) (b : Byte) : Word := BitVec.ofNat 16 ((i.toNat + b.toNat) % 4096)

/-- R142: the address of the glyph a byte selects, on all 8 bits. -/
def glyphAddr (b : Byte) : Word := BitVec.ofNat 16 (0x050 + 5 * b.toNat)

/-- R59, R146: the `len` bytes from `base` lie inside memory; the address never wraps. -/
def inMemory (base len : Nat) : Bool := decide (base + len ≤ 4096)

/-- R53: the `len` bytes from `base` meet the font, 0x050 to 0x09F. -/
def meetsFont (base len : Nat) : Bool := decide (base ≤ 0x09F) && decide (0x050 < base + len)

/-- The store of `Fx33` and `Fx55` (R143, R144): the bytes at `I` on, after the two checks in R185's order, the range
check under the caller's sub-cause. `I` is left unchanged (R146). -/
def storeAtI (s : State) (bytes : List Byte) (c : SubCause) : Result :=
  if !inMemory s.i.toNat bytes.length then raise c
  else if meetsFont s.i.toNat bytes.length then raise .romWrite
  else .next (s.setMem (s.mem.writeBytes s.i.toNat bytes))

/-- R143: hundreds, tens, ones. -/
def bcdDigits (b : Byte) : List Byte :=
  [BitVec.ofNat 8 (b.toNat / 100), BitVec.ofNat 8 (b.toNat / 10 % 10), BitVec.ofNat 8 (b.toNat % 10)]

/-- R144: V[0] to V[x]. -/
def State.regsUpTo (s : State) (x : Reg) : List Byte := s.v.toList.take (x.val + 1)

/-- R145: V[0] to V[x] take the bytes at `base` on; the registers above stay. -/
def State.loadRegs (s : State) (x : Reg) (base : Nat) : State :=
  { s with v := Vector.ofFn fun r : Fin 16 => if r.val ≤ x.val then s.mem.read (base + r.val) else s.v[r.val] }

/-- The columns of a sprite row's set bits, bit 7 leftmost (R151). -/
def rowColumns (b : Byte) : List Nat := (List.range 8).filter fun c => b.getLsbD (7 - c)

/-- The set S of R151: the (row, column) pairs of the set bits of a sprite. -/
def spriteBits (rows : List Byte) : List (Nat × Nat) :=
  (List.range rows.length).flatMap fun r => (rowColumns (rows.getD r 0)).map fun c => (r, c)

/-- The (column, row) of the cells that a sprite at column `x0` and row `y0` toggles. The origin is used as it
stands (R152). -/
def spriteCells (x0 y0 : Nat) (rows : List Byte) : List (Nat × Nat) :=
  (spriteBits rows).map fun rc => (x0 + rc.2, y0 + rc.1)

/-- R34: column 0 to 63 and row 0 to 31. -/
def onScreen (cr : Nat × Nat) : Bool := decide (cr.1 ≤ 63) && decide (cr.2 ≤ 31)

/-- R170, R171: the state of the key a byte names; none above 15. -/
def State.keyAt (s : State) (b : Byte) : Option Bool :=
  if h : b.toNat < 16 then some s.keys[b.toNat] else none

/-- R172: the least index of a pressed key. -/
def State.firstPressed (s : State) : Option (Fin 16) := (List.finRange 16).find? fun k => s.keys[k.val]

end Sys2Proof.Machine
end

