-- ==== Sys2Proof/Machine/Arith.lean ====
section
/-! DEFINITION. Register loads, arithmetic, logic, shifts and random (spec/41_arithmetic.md). Both operands are read
first, then V[X] receives the result, then VF the flag (R133). -/

namespace Sys2Proof.Machine

/-- `6xnn` LD Vx, nn (R120). -/
def execLdImm (x : Reg) (nn : Byte) (s : State) : Result := .next (s.writeV x nn)

/-- `7xnn` ADD Vx, nn (R121): wraps, no flag. -/
def execAddImm (x : Reg) (nn : Byte) (s : State) : Result := .next (s.writeV x (s.readV x + nn))

/-- `8xy0` LD Vx, Vy (R122). -/
def execLdReg (x y : Reg) (s : State) : Result := .next (s.writeV x (s.readV y))

/-- `8xy1` OR Vx, Vy (R123). -/
def execOr (x y : Reg) (s : State) : Result := .next (s.writeV x (s.readV x ||| s.readV y))

/-- `8xy2` AND Vx, Vy (R124). -/
def execAnd (x y : Reg) (s : State) : Result := .next (s.writeV x (s.readV x &&& s.readV y))

/-- `8xy3` XOR Vx, Vy (R125). -/
def execXor (x y : Reg) (s : State) : Result := .next (s.writeV x (s.readV x ^^^ s.readV y))

/-- `8xy4` ADD Vx, Vy (R126). -/
def execAddReg (x y : Reg) (s : State) : Result :=
  .next ((s.writeV x (s.readV x + s.readV y)).writeFlag (carryFlag (s.readV x) (s.readV y)))

/-- `8xy5` SUB Vx, Vy (R127). -/
def execSub (x y : Reg) (s : State) : Result :=
  .next ((s.writeV x (s.readV x - s.readV y)).writeFlag (noBorrowFlag (s.readV x) (s.readV y)))

/-- `8xy6` SHR Vx (R128); Y has no effect (R85). -/
def execShr (x _y : Reg) (s : State) : Result :=
  .next ((s.writeV x (s.readV x >>> 1)).writeFlag (lowBitFlag (s.readV x)))

/-- `8xy7` SUBN Vx, Vy (R129). -/
def execSubn (x y : Reg) (s : State) : Result :=
  .next ((s.writeV x (s.readV y - s.readV x)).writeFlag (noBorrowFlag (s.readV y) (s.readV x)))

/-- `8xyE` SHL Vx (R130); Y has no effect (R85). -/
def execShl (x _y : Reg) (s : State) : Result :=
  .next ((s.writeV x (s.readV x <<< 1)).writeFlag (highBitFlag (s.readV x)))

/-- `Cxnn` RND Vx, nn (R131). -/
def execRnd (x : Reg) (nn : Byte) (s : State) : Result := .next (s.draw.2.writeV x (s.draw.1 &&& nn))

end Sys2Proof.Machine
end

