-- ==== Sys2Proof/Machine/Draw.lean ====
section
/-! DEFINITION. Clear screen and draw (spec/43_draw.md). -/

namespace Sys2Proof.Machine

/-- `00E0` CLS (R150). -/
def execCls (s : State) : Result := .next (s.setFb (Vector.replicate 32 0))

/-- `Dxyn` DRW Vx, Vy, n (R151 to R153): position and sprite are read first; the memory check comes before the screen
check (R185); VF receives the collision last. -/
def execDrw (x y : Reg) (n : BitVec 4) (s : State) : Result :=
  if inMemory s.i.toNat n.toNat then
    let cells := spriteCells (s.readV x).toNat (s.readV y).toNat (s.mem.readBytes s.i.toNat n.toNat)
    if cells.all onScreen then
      let drawn := toggleCells cells s.fb false
      .next ((s.setFb drawn.1).writeFlag drawn.2)
    else raise .drawFramebuffer
  else raise .drawMemory

end Sys2Proof.Machine
end

