-- ==== Sys2Proof/Machine/Flow.lean ====
section
/-! DEFINITION. Jumps, calls, returns and skips (spec/40_cycle_flow_stack.md §2 to §4). Every meaning sees `pc` already
advanced past its own word (R101). -/

namespace Sys2Proof.Machine

/-- `00EE` RET (R104). -/
def execRet (s : State) : Result := s.popPc

/-- `1nnn` JP nnn (R105). -/
def execJp (nnn : BitVec 12) (s : State) : Result := .next (s.setPc (zextAddr nnn))

/-- `2nnn` CALL nnn (R103): the advanced pc is pushed. -/
def execCall (nnn : BitVec 12) (s : State) : Result :=
  match s.push s.pc with
  | .next t => .next (t.setPc (zextAddr nnn))
  | .fault r => .fault r
  | .refused r => .refused r

/-- `3xnn` SE Vx, nn (R106). -/
def execSeImm (x : Reg) (nn : Byte) (s : State) : Result := .next (s.skipIf (s.readV x == nn))

/-- `4xnn` SNE Vx, nn (R107). -/
def execSneImm (x : Reg) (nn : Byte) (s : State) : Result := .next (s.skipIf (s.readV x != nn))

/-- `5xy0` SE Vx, Vy (R108). -/
def execSeReg (x y : Reg) (s : State) : Result := .next (s.skipIf (s.readV x == s.readV y))

/-- `9xy0` SNE Vx, Vy (R109). -/
def execSneReg (x y : Reg) (s : State) : Result := .next (s.skipIf (s.readV x != s.readV y))

/-- `Bnnn` JP V0, nnn (R111). -/
def execJpV0 (nnn : BitVec 12) (s : State) : Result := .next (s.setPc (indexedTarget nnn (s.readV 0)))

end Sys2Proof.Machine
end

