-- ==== Sys2Proof/Machine/Index.lean ====
section
/-! DEFINITION. The index register and the memory instructions (spec/42_memory_index.md). -/

namespace Sys2Proof.Machine

/-- `Annn` LD I, nnn (R140). -/
def execLdI (nnn : BitVec 12) (s : State) : Result := .next (s.setI (zextAddr nnn))

/-- `Fx1E` ADD I, Vx (R141): modulo 4096, no flag. -/
def execAddI (x : Reg) (s : State) : Result := .next (s.setI (wrapIndex s.i (s.readV x)))

/-- `Fx29` LD F, Vx (R142). -/
def execLdF (x : Reg) (s : State) : Result := .next (s.setI (glyphAddr (s.readV x)))

/-- `Fx33` LD B, Vx (R143). -/
def execLdB (x : Reg) (s : State) : Result := storeAtI s (bcdDigits (s.readV x)) .bcdStore

/-- `Fx55` LD [I], Vx (R144). -/
def execStRegs (x : Reg) (s : State) : Result := storeAtI s (s.regsUpTo x) .blockStore

/-- `Fx65` LD Vx, [I] (R145): all bytes are read before a register is written. -/
def execLdRegs (x : Reg) (s : State) : Result :=
  if inMemory s.i.toNat (x.val + 1) then .next (s.loadRegs x s.i.toNat) else raise .blockLoad

end Sys2Proof.Machine
end

