-- ==== Sys2Proof/Machine/Keypad.lean ====
section
/-! DEFINITION. The keypad instructions (spec/45_keypad.md). None writes `keys` (R173). -/

namespace Sys2Proof.Machine

/-- `Ex9E` SKP Vx (R170). -/
def execSkp (x : Reg) (s : State) : Result :=
  match s.keyAt (s.readV x) with
  | some pressed => .next (s.skipIf pressed)
  | none => raise .keypad

/-- `ExA1` SKNP Vx (R171). -/
def execSknp (x : Reg) (s : State) : Result :=
  match s.keyAt (s.readV x) with
  | some pressed => .next (s.skipIf (!pressed))
  | none => raise .keypad

/-- `Fx0A` LD Vx, K (R172): the first pressed key, or `pc` back to this instruction. -/
def execLdVxK (x : Reg) (s : State) : Result :=
  match s.firstPressed with
  | some k => .next (s.writeV x (BitVec.ofNat 8 k.val))
  | none => .next (s.setPc (s.pc - 2))

end Sys2Proof.Machine
end

