-- ==== Sys2Proof/Machine/Timer.lean ====
section
/-! DEFINITION. The timer instructions (spec/44_timers.md §2); the tick is `State.tick`. -/

namespace Sys2Proof.Machine

/-- `Fx07` LD Vx, DT (R161): DT before this cycle's tick. -/
def execLdVxDt (x : Reg) (s : State) : Result := .next (s.writeV x s.dt)

/-- `Fx15` LD DT, Vx (R162): this cycle's tick follows. -/
def execLdDtVx (x : Reg) (s : State) : Result := .next (s.setDt (s.readV x))

/-- `Fx18` LD ST, Vx (R163): this cycle's tick follows. -/
def execLdStVx (x : Reg) (s : State) : Result := .next (s.setSt (s.readV x))

end Sys2Proof.Machine
end

