-- ==== Sys2Proof/Machine/Step.lean ====
section
/-! DEFINITION. One cycle (spec/40_cycle_flow_stack.md R100): fetch, advance, execute, tick. -/

namespace Sys2Proof.Machine

/-- `cycle()` of R100, with the fault order of spec/60_exceptions.md R185. A fault hands on no state: the state before
the cycle stands (R186). -/
def step (s : State) : Host.Outcome State Fault Refusal :=
  match s.fetch with
  | none => raise .fetch
  | some w =>
    match decode w with
    | none => .fault (.unknownInstruction w)
    | some i => finishCycle (exec i s.advance)

/-- `s` with the word of a table row where the next cycle fetches it: two bytes at pc, high byte first (R56). -/
def State.withFetchWord (s : State) (nbits w : Nat) : State := s.placeWord (BitVec.ofNat 16 (w % 2 ^ nbits))

end Sys2Proof.Machine
end

