-- ==== Sys2Proof/Machine/HostPort.lean ====
section
/-! DEFINITION. What the host does to the core between cycles (spec/70_reset_and_hazards.md R212 to R216), what it
reads, and the optional fault numbers (spec/60_exceptions.md R184). -/

namespace Sys2Proof.Machine

/-- R212: a reset of a running core is R210 again; FONT is a parameter, so it is the same one. The count of draws is no
state of the machine (R20) and goes on, so that later draws stay fresh (notes/assumptions/3.md). -/
def State.resetAgain (s : State) : State := { State.resetWith s.mem.font with draws := s.draws }

/-- R213, R214: `load(bytes)`. Too long a program is refused before any byte is written; otherwise the bytes go to
0x200 on and nothing else changes. -/
def State.load (s : State) (bytes : List Byte) : Result :=
  if bytes.length > Config.progMax then .fault (.loadTooLarge bytes.length)
  else .next (s.setMem (s.mem.writeBytes Config.progBase bytes))

/-- R216: `keys[k] <- value`. -/
def State.setKey (s : State) (k : Fin 16) (pressed : Bool) : State := { s with keys := s.keys.set k.val pressed }

/-- R28, R164: the host reads the sound timer as a value. -/
def State.soundTimer (s : State) : Byte := s.st

/-- One operation of the host (R216). -/
inductive HostOp where
  | reset
  | load (bytes : List Byte)
  | setKey (k : Fin 16) (pressed : Bool)
  | cycle
  deriving DecidableEq, Repr

/-- The outcome of one operation of the host: all happen between cycles and none overlaps another. -/
def hostOp (s : State) : HostOp → Result
  | .reset => .next s.resetAgain
  | .load bytes => s.load bytes
  | .setKey k pressed => .next (s.setKey k pressed)
  | .cycle => step s

/-- R186, R188: the state the host holds after an operation. A fault has changed nothing. -/
def afterHostOp (s : State) (op : HostOp) : State :=
  match hostOp s op with
  | .next t => t
  | .fault _ => s
  | .refused _ => s

/-- R184: the number of a fault kind. -/
def Fault.code : Fault → Nat
  | .unknownInstruction _ => 1
  | .outOfBounds _ => 2
  | .loadTooLarge _ => 3

/-- R184: the number of a sub-cause, in the order of R182's table. -/
def SubCause.code : SubCause → Nat
  | .fetch => 0
  | .stackOverflow => 1
  | .stackUnderflow => 2
  | .drawMemory => 3
  | .drawFramebuffer => 4
  | .bcdStore => 5
  | .blockStore => 6
  | .blockLoad => 7
  | .romWrite => 8
  | .keypad => 9

end Sys2Proof.Machine
end

