-- ==== Sys2Proof/Safety.lean ====
section
/-! DEFINITION. The invariant of spec/10_state.md R39, the states the host can bring about, and what a successful run
is (spec/60_exceptions.md R188). -/

namespace Sys2Proof.Machine

/-- R39, with the canonical form of memory and what makes it inductive. -/
structure State.Inv (s : State) : Prop where
  /-- Memory is in its canonical form. -/
  memWf : s.mem.wf
  /-- The font reads as FONT: `mem[0x050 + i] = FONT[i]`. -/
  fontKept : ∀ k (h : k < 80), s.mem.read (0x050 + k) = s.mem.font[k]
  /-- `I ≤ 0x0FFF`. -/
  iRange : s.i.toNat ≤ 0x0FFF
  /-- `pc ≤ 0x10FE`. -/
  pcRange : s.pc.toNat ≤ 0x10FE
  /-- Every `stack[k]` with `k < sp` is at most 0x1000. -/
  stackRange : ∀ k (h : k < 16), k < s.sp.val → s.stack[k].toNat ≤ 0x1000

/-- The states reached from reset, for some FONT, by any operations of the host (R39, R216): a fault leaves the
state as it was. -/
inductive Reachable : State → Prop where
  | reset (font : Vector Byte 80) : Reachable (State.resetWith font)
  | op (s : State) (o : HostOp) : Reachable s → Reachable (afterHostOp s o)

/-- A run of cycles that executes exactly the listed instructions, one a cycle, each fetched and decoded at its own
pc, and completes: no cycle faults. -/
inductive Executes : State → List Instr → State → Prop where
  | nil (s : State) : Executes s [] s
  | cons (s t u : State) (w : Word) (i : Instr) (is : List Instr) :
      s.fetch = some w → decode w = some i → step s = .next t → Executes t is u → Executes s (i :: is) u

/-- R188: `n` cycles that all complete. A run that faults is never a successful one. -/
def RunsSafely (n : Nat) (s : State) : Prop := ∃ t, Sys2Proof.core.run n s = .next t

end Sys2Proof.Machine
end

