-- ==== Sys2Proof/WellFormed.lean ====
section
/-! DEFINITION. When the operands of an instruction fit its fields (spec/30_encoding.md R82, R90). The types of
`Instr` already carry these bounds, so every `Instr` passes; the check is stated over plain numbers, as a reader
or an assembler of R90 has them, and that is where it can refuse. -/

namespace Sys2Proof

/-- The operands of an instruction as plain numbers; a field the format does not have is 0. -/
structure RawOperands where
  x : Nat := 0
  y : Nat := 0
  n : Nat := 0
  nn : Nat := 0
  nnn : Nat := 0
  deriving DecidableEq, Repr

/-- R82, R90: register numbers and `n` are 0 to 15, `nn` is 0x00 to 0xFF, `nnn` is 0x000 to 0xFFF. -/
def RawOperands.wf (o : RawOperands) : Bool :=
  decide (o.x < 16) && decide (o.y < 16) && decide (o.n < 16) && decide (o.nn < 256) && decide (o.nnn < 4096)

/-- The operands of an instruction, as numbers. -/
def Instr.operands : Instr → RawOperands
  | .cls | .ret => {}
  | .jp nnn | .call nnn | .ldI nnn | .jpV0 nnn => { nnn := nnn.toNat }
  | .seImm x nn | .sneImm x nn | .ldImm x nn | .addImm x nn | .rnd x nn => { x := x.val, nn := nn.toNat }
  | .seReg x y | .ldReg x y | .orReg x y | .andReg x y | .xorReg x y | .addReg x y | .sub x y | .shr x y
  | .subn x y | .shl x y | .sneReg x y => { x := x.val, y := y.val }
  | .drw x y n => { x := x.val, y := y.val, n := n.toNat }
  | .skp x | .sknp x | .ldVxDt x | .ldVxK x | .ldDtVx x | .ldStVx x | .addI x | .ldF x | .ldB x | .stRegs x
  | .ldRegs x => { x := x.val }

/-- An instruction is well-formed when its operands fit its fields. -/
abbrev Instr.WellFormed (i : Instr) : Prop := i.operands.wf = true

end Sys2Proof
end

