-- ==== Sys2Proof/Certificates/Slice0/Obligations.lean ====
section
/-! DEFINITION. The statements for the provers. Each docstring names the rules of spec/ it formalises; where a clause
rests on a decision that the spec marks as its own (spec/92_eei_decisions.md), the docstring says so. -/

open Sys2Proof Sys2Proof.Machine

namespace Sys2Proof.Claims

/-- The pieces of state of R20 (and the model's own count of draws). -/
inductive Part where
  | mem | v | i | pc | stack | sp | dt | st | fb | keys | draws
  deriving DecidableEq, Repr

/-- A piece of state is the same in two states: every byte of memory reads the same, every register, every entry of
the stack, every cell, every key. -/
def Kept (s t : State) : Part → Prop
  | .mem => (∀ a, t.mem.read a = s.mem.read a) ∧ t.mem.font = s.mem.font
  | .v => ∀ r, t.readV r = s.readV r
  | .i => t.i = s.i
  | .pc => t.pc = s.pc
  | .stack => ∀ k (h : k < 16), t.stack[k] = s.stack[k]
  | .sp => t.sp = s.sp
  | .dt => t.dt = s.dt
  | .st => t.st = s.st
  | .fb => ∀ col row, t.cell col row = s.cell col row
  | .keys => ∀ k (h : k < 16), t.keys[k] = s.keys[k]
  | .draws => t.draws = s.draws

/-- Every piece of state is kept but those listed. -/
def KeptBut (s t : State) (changed : List Part) : Prop := ∀ p, p ∉ changed → Kept s t p

/-- Every register is kept but those listed. -/
def RegsKeptBut (s t : State) (changed : List Reg) : Prop := ∀ r, r ∉ changed → t.readV r = s.readV r

/-- The bit of a sprite row at column `c`, bit 7 leftmost (R151). -/
def SpriteBit (s : State) (r c : Nat) : Prop := (s.mem.read (s.i.toNat + r)).getLsbD (7 - c) = true

/-- R151: the sprite of `n` rows at (`x0`, `y0`) toggles the cell at column `col` and row `row`. -/
def Toggles (s : State) (x0 y0 n col row : Nat) : Prop :=
  ∃ r c, r < n ∧ c < 8 ∧ SpriteBit s r c ∧ col = x0 + c ∧ row = y0 + r

/-- R152: some set bit of the sprite falls outside the grid. -/
def OffScreen (s : State) (x0 y0 n : Nat) : Prop :=
  ∃ r c, r < n ∧ c < 8 ∧ SpriteBit s r c ∧ (63 < x0 + c ∨ 31 < y0 + r)

/-- The table of R182, in the order of R185: the condition under which an instruction, at the state it executes in,
raises a sub-cause. -/
def Raises (i : Instr) (s : State) (c : SubCause) : Prop :=
  match i with
  | .call _ => c = .stackOverflow ∧ s.sp.val = 16
  | .ret => c = .stackUnderflow ∧ s.sp.val = 0
  | .drw x y n =>
    (c = .drawMemory ∧ 4096 < s.i.toNat + n.toNat) ∨
    (c = .drawFramebuffer ∧ s.i.toNat + n.toNat ≤ 4096 ∧ OffScreen s (s.readV x).toNat (s.readV y).toNat n.toNat)
  | .ldB _ =>
    (c = .bcdStore ∧ 0x0FFF < s.i.toNat + 2) ∨
    (c = .romWrite ∧ s.i.toNat + 2 ≤ 0x0FFF ∧ ∃ a, 0x050 ≤ a ∧ a ≤ 0x09F ∧ s.i.toNat ≤ a ∧ a ≤ s.i.toNat + 2)
  | .stRegs x =>
    (c = .blockStore ∧ 0x0FFF < s.i.toNat + x.val) ∨
    (c = .romWrite ∧ s.i.toNat + x.val ≤ 0x0FFF ∧
      ∃ a, 0x050 ≤ a ∧ a ≤ 0x09F ∧ s.i.toNat ≤ a ∧ a ≤ s.i.toNat + x.val)
  | .ldRegs x => c = .blockLoad ∧ 0x0FFF < s.i.toNat + x.val
  | .skp x | .sknp x => c = .keypad ∧ 0x0F < (s.readV x).toNat
  | _ => False

/-- The word in memory at pc, high byte at the lower address (R56). -/
def WordAtPc (s : State) (w : Word) : Prop :=
  w.toNat = (s.mem.read s.pc.toNat).toNat * 256 + (s.mem.read (s.pc.toNat + 1)).toNat

/-- The next cycle fetches and decodes this instruction (R58, R83). -/
def Fetches (s : State) (i : Instr) : Prop := s.pc.toNat ≤ 0x0FFE ∧ ∃ w, WordAtPc s w ∧ decode w = some i

/-- The table of R29: what pc holds after the completed cycle of an instruction fetched in state `s`. -/
def PcAfter (i : Instr) (s : State) (pc : Word) : Prop :=
  match i with
  | .jp nnn | .call nnn => pc.toNat = nnn.toNat
  | .ret => ∃ h : 0 < s.sp.val, pc = s.stack[s.sp.val - 1]'(by omega)
  | .jpV0 nnn => pc.toNat = nnn.toNat + (s.readV 0).toNat
  | .seImm x nn => pc = if s.readV x = nn then s.pc + 4 else s.pc + 2
  | .sneImm x nn => pc = if s.readV x ≠ nn then s.pc + 4 else s.pc + 2
  | .seReg x y => pc = if s.readV x = s.readV y then s.pc + 4 else s.pc + 2
  | .sneReg x y => pc = if s.readV x ≠ s.readV y then s.pc + 4 else s.pc + 2
  | .skp x => ∃ h : (s.readV x).toNat < 16, pc = if s.keys[(s.readV x).toNat] = true then s.pc + 4 else s.pc + 2
  | .sknp x => ∃ h : (s.readV x).toNat < 16, pc = if s.keys[(s.readV x).toNat] = false then s.pc + 4 else s.pc + 2
  | .ldVxK _ => pc = if ∃ k : Fin 16, s.keys[k.val] = true then s.pc + 2 else s.pc
  | _ => pc = s.pc + 2

end Sys2Proof.Claims

open Sys2Proof.Claims

/-! ## Encoding -/

/-- Words written out from the encodings of R84, one for each format and group: they decode to the instruction they
stand for. -/
def Obligations.WordsDecodeAsTabled : Prop :=
  decode 0b0000000011100000 = some .cls ∧
  decode 0b0000000011101110 = some .ret ∧
  decode 0b0010001000001100 = some (.call 0x20C) ∧
  decode 0b0011001100101010 = some (.seImm 3 0x2A) ∧
  decode 0b1000111111100101 = some (.sub 15 14) ∧
  decode 0b1001000100100000 = some (.sneReg 1 2) ∧
  decode 0b1011111111111111 = some (.jpV0 0xFFF) ∧
  decode 0b1101000100100101 = some (.drw 1 2 5) ∧
  decode 0b1110010110011110 = some (.skp 5) ∧
  decode 0b1111001101100101 = some (.ldRegs 3)

/-- Decode and encode agree (R82, R84): every instruction, with every operand at every value the encoding admits, is
what its own word decodes to. Every `Instr` is well-formed, so nothing is shut out. -/
def Obligations.DecodeOfEncode : Prop := ∀ i : Instr, decode (encode i) = some i

/-- A word that decodes is the word of what it decodes to. This rests on two choices: `Instr` keeps the Y field of
`8xy6` and `8xyE`, which R85 gives no effect (the model's choice, log entry 10: the 16 words of one such operation
decode to 16 terms of `Instr`), and words are decoded exactly (the spec's decision D14). -/
def Obligations.EncodeOfDecode : Prop := ∀ (w : Word) (i : Instr), decode w = some i → encode i = w

/-- R80, R56: an instruction's two bytes, high byte first, decode to it and hand back what follows. -/
def Obligations.BytesDecodeInOrder : Prop :=
  ∀ (i : Instr) (rest : List Byte), decodeBytes (encodeBytes i ++ rest) = some (i, rest)

/-- R83: a word decodes exactly when `w & mask = match` for some row of R84, to an instruction of that row, and the
rows are pairwise disjoint. That the patterns are matched exactly is the spec's decision D14. -/
def Obligations.DecodeAgreesWithOpcodeTable : Prop :=
  (∀ w : Word, (∃ i, decode w = some i) ↔ ∃ r ∈ opcodeTable, w &&& r.mask = r.pattern) ∧
  (∀ (w : Word) (i : Instr), decode w = some i → i.row ∈ opcodeTable ∧ w &&& i.row.mask = i.row.pattern) ∧
  (∀ (w : Word), ∀ r ∈ opcodeTable, ∀ r' ∈ opcodeTable,
    w &&& r.mask = r.pattern → w &&& r'.mask = r'.pattern → r = r')

/-- R87: the unrecognized words, exhaustively, group by group. The spec marks the exactness as its decision D14. -/
def Obligations.UnrecognizedWordsExactly : Prop :=
  ∀ w : Word, decode w = none ↔
    (w.toNat / 4096 = 0x0 ∧ w.toNat ≠ 0x00E0 ∧ w.toNat ≠ 0x00EE) ∨
    (w.toNat / 4096 = 0x5 ∧ w.toNat % 16 ≠ 0) ∨
    (w.toNat / 4096 = 0x8 ∧ w.toNat % 16 ∈ [0x8, 0x9, 0xA, 0xB, 0xC, 0xD, 0xF]) ∨
    (w.toNat / 4096 = 0x9 ∧ w.toNat % 16 ≠ 0) ∨
    (w.toNat / 4096 = 0xE ∧ w.toNat % 256 ∉ [0x9E, 0xA1]) ∨
    (w.toNat / 4096 = 0xF ∧ w.toNat % 256 ∉ [0x07, 0x0A, 0x15, 0x18, 0x1E, 0x29, 0x33, 0x55, 0x65])

/-! ## The cycle -/

/-- R100, R101, R102: when the word at pc decodes, the cycle is the instruction's meaning at the state with pc
advanced by 2, and a completed one ends with the tick of both timers; a fault of the meaning is the fault of the
cycle. -/
def Obligations.StepRunsDecodedInstruction : Prop :=
  ∀ (s : State) (w : Word) (i : Instr), s.pc.toNat ≤ 0x0FFE → WordAtPc s w → decode w = some i →
    (∀ t, exec i { s with pc := s.pc + 2 } = .next t →
      step s = .next { t with dt := if t.dt = 0 then 0 else t.dt - 1, st := if t.st = 0 then 0 else t.st - 1 }) ∧
    (∀ f, exec i { s with pc := s.pc + 2 } = .fault f → step s = .fault f)

/-- R58: a cycle that starts with pc above 0x0FFE raises OutOfBounds(Fetch); no address wraps. -/
def Obligations.FetchPastEndFaults : Prop :=
  ∀ s : State, 0x0FFE < s.pc.toNat → step s = .fault (.outOfBounds .fetch) ∧ afterHostOp s .cycle = s

/-- R86, R181: an unrecognized word raises UnknownInstruction with that word, and changes nothing. -/
def Obligations.UnrecognizedWordFaults : Prop :=
  ∀ (s : State) (w : Word), s.pc.toNat ≤ 0x0FFE → WordAtPc s w → decode w = none →
    step s = .fault (.unknownInstruction w) ∧ afterHostOp s .cycle = s

/-- R182, R185: a cycle faults exactly as the table of sub-causes says, in the order of the cycle's steps, and
completes in every other state; nothing is refused. The sub-causes and their order are the spec's decisions D12 and
D15, RomWrite is D5, no fault in the reserved low memory is D6, Keypad is D7, DrawFramebuffer is D3, exact decode is
D14. -/
def Obligations.CycleFaultsExactlyAsTabled : Prop :=
  ∀ s : State,
    (step s = .fault (.outOfBounds .fetch) ↔ 0x0FFE < s.pc.toNat) ∧
    (∀ w, step s = .fault (.unknownInstruction w) ↔ s.pc.toNat ≤ 0x0FFE ∧ WordAtPc s w ∧ decode w = none) ∧
    (∀ c, c ≠ .fetch →
      (step s = .fault (.outOfBounds c) ↔ ∃ i, Fetches s i ∧ Raises i { s with pc := s.pc + 2 } c)) ∧
    (∀ n, step s ≠ .fault (.loadTooLarge n)) ∧
    ((∃ t, step s = .next t) ↔ ∃ i, Fetches s i ∧ ∀ c, ¬ Raises i { s with pc := s.pc + 2 } c)

/-- R186, R188: after a cycle that faults the host holds the state it held before, and another cycle raises the same
fault. That the whole cycle is what aborts is the spec's decision D1. -/
def Obligations.FaultChangesNothing : Prop :=
  ∀ (s : State) (f : Fault), step s = .fault f →
    afterHostOp s .cycle = s ∧ step (afterHostOp s .cycle) = .fault f

/-- R160: at the end of a cycle each timer holds one less than the execute step left in it, or zero; only `Fx15` and
`Fx18` put anything else into them. -/
def Obligations.TimersTickOncePerCycle : Prop :=
  ∀ (s t : State), step s = .next t →
    ∃ i u, Fetches s i ∧ exec i { s with pc := s.pc + 2 } = .next u ∧
      t.dt.toNat = u.dt.toNat - 1 ∧ t.st.toNat = u.st.toNat - 1 ∧ KeptBut u t [.dt, .st] ∧
      ((∀ x, i ≠ .ldDtVx x) → u.dt = s.dt) ∧ ((∀ x, i ≠ .ldStVx x) → u.st = s.st)

/-- R160 over a run: with no `Fx15` among the instructions executed, DT has lost one a cycle, down to zero. -/
def Obligations.DelayCountsDownEveryCycle : Prop :=
  ∀ (s t : State) (is : List Instr), Executes s is t → (∀ x, Instr.ldDtVx x ∉ is) →
    t.dt.toNat = s.dt.toNat - is.length

/-! ## Register loads, arithmetic, logic, shifts, random -/

/-- R120, R122: the two register loads. -/
def Obligations.RegisterLoads : Prop :=
  (∀ (x : Reg) (nn : Byte) (s : State), ∃ t, exec (.ldImm x nn) s = .next t ∧
    t.readV x = nn ∧ RegsKeptBut s t [x] ∧ KeptBut s t [.v]) ∧
  (∀ (x y : Reg) (s : State), ∃ t, exec (.ldReg x y) s = .next t ∧
    t.readV x = s.readV y ∧ RegsKeptBut s t [x] ∧ KeptBut s t [.v])

/-- R121: `7xnn` adds modulo 256 and sets no flag: VF is kept unless it is the destination. -/
def Obligations.AddImmediateWrapsWithoutFlag : Prop :=
  ∀ (x : Reg) (nn : Byte) (s : State), ∃ t, exec (.addImm x nn) s = .next t ∧
    (t.readV x).toNat = ((s.readV x).toNat + nn.toNat) % 256 ∧ RegsKeptBut s t [x] ∧ KeptBut s t [.v]

/-- R123, R124, R125: OR, AND, XOR, bit by bit; no flag is written. -/
def Obligations.BitwiseLogic : Prop :=
  ∀ (x y : Reg) (s : State),
    (∃ t, exec (.orReg x y) s = .next t ∧
      (∀ k, (t.readV x).getLsbD k = ((s.readV x).getLsbD k || (s.readV y).getLsbD k)) ∧
      RegsKeptBut s t [x] ∧ KeptBut s t [.v]) ∧
    (∃ t, exec (.andReg x y) s = .next t ∧
      (∀ k, (t.readV x).getLsbD k = ((s.readV x).getLsbD k && (s.readV y).getLsbD k)) ∧
      RegsKeptBut s t [x] ∧ KeptBut s t [.v]) ∧
    (∃ t, exec (.xorReg x y) s = .next t ∧
      (∀ k, (t.readV x).getLsbD k = ((s.readV x).getLsbD k ^^ (s.readV y).getLsbD k)) ∧
      RegsKeptBut s t [x] ∧ KeptBut s t [.v])

/-- R126: sum modulo 256 in V[x], carry in VF. That VF is written last, so that with X = F the carry is what remains,
is the spec's decision D4 (R25, R133; log entry 10). -/
def Obligations.AddWithCarry : Prop :=
  ∀ (x y : Reg) (s : State), ∃ t, exec (.addReg x y) s = .next t ∧
    (x ≠ VF → (t.readV x).toNat = ((s.readV x).toNat + (s.readV y).toNat) % 256) ∧
    t.readV VF = (if (s.readV x).toNat + (s.readV y).toNat > 255 then 1 else 0) ∧
    RegsKeptBut s t [x, VF] ∧ KeptBut s t [.v]

/-- R127: V[x] − V[y] modulo 256 in V[x], no-borrow in VF. That VF is written last, so that with X = F the flag is
what remains, is the spec's decision D4 (R25, R133; log entry 10). -/
def Obligations.SubtractWithNoBorrowFlag : Prop :=
  ∀ (x y : Reg) (s : State), ∃ t, exec (.sub x y) s = .next t ∧
    (x ≠ VF → ((t.readV x).toNat : Int) = (((s.readV x).toNat : Int) - (s.readV y).toNat) % 256) ∧
    t.readV VF = (if (s.readV x).toNat ≥ (s.readV y).toNat then 1 else 0) ∧
    RegsKeptBut s t [x, VF] ∧ KeptBut s t [.v]

/-- R129: V[y] − V[x] modulo 256 in V[x], no-borrow in VF. That VF is written last, so that with X = F the flag is
what remains, is the spec's decision D4 (R25, R133; log entry 10). -/
def Obligations.ReverseSubtractWithNoBorrowFlag : Prop :=
  ∀ (x y : Reg) (s : State), ∃ t, exec (.subn x y) s = .next t ∧
    (x ≠ VF → ((t.readV x).toNat : Int) = (((s.readV y).toNat : Int) - (s.readV x).toNat) % 256) ∧
    t.readV VF = (if (s.readV y).toNat ≥ (s.readV x).toNat then 1 else 0) ∧
    RegsKeptBut s t [x, VF] ∧ KeptBut s t [.v]

/-- R128, R130, R85: V[x] shifted by one place in place, the bit moved out in VF, whatever Y is. That VF is written
last, so that with X = F the flag is what remains, is the spec's decision D4 (R25, R133, spec/90_conflicts.md C15; log
entry 10). -/
def Obligations.ShiftsByOnePlace : Prop :=
  ∀ (x y : Reg) (s : State),
    (∃ t, exec (.shr x y) s = .next t ∧
      (x ≠ VF → (t.readV x).toNat = (s.readV x).toNat / 2) ∧ (t.readV VF).toNat = (s.readV x).toNat % 2 ∧
      RegsKeptBut s t [x, VF] ∧ KeptBut s t [.v] ∧ ∀ y', exec (.shr x y') s = .next t) ∧
    (∃ t, exec (.shl x y) s = .next t ∧
      (x ≠ VF → (t.readV x).toNat = (s.readV x).toNat * 2 % 256) ∧ (t.readV VF).toNat = (s.readV x).toNat / 128 ∧
      RegsKeptBut s t [x, VF] ∧ KeptBut s t [.v] ∧ ∀ y', exec (.shl x y') s = .next t)

/-- R131: `Cxnn` leaves a free byte ANDed with NN in V[x] and takes the next draw; bits where NN has 0 are 0. That the
byte is a draw under no law is the spec's decision D9; that draws are numbered is the model's (log entry 2), and
nothing is said of any draw's value. -/
def Obligations.RandomByteIsMasked : Prop :=
  ∀ (x : Reg) (nn : Byte) (s : State), ∃ t, exec (.rnd x nn) s = .next t ∧
    t.readV x = (Config.rnd s.draws &&& nn) ∧ (∀ k, nn.getLsbD k = false → (t.readV x).getLsbD k = false) ∧
    t.draws = s.draws + 1 ∧ RegsKeptBut s t [x] ∧ KeptBut s t [.v, .draws]

/-- R24, last sentence: VF is kept by every completed cycle but those of `8xy4` to `8xy7`, `8xyE` and `Dxyn`, which
write it as a flag, and those of an instruction that has VF among its destinations. -/
def Obligations.FlagChangesOnlyAsListed : Prop :=
  ∀ (s t : State) (i : Instr), Fetches s i → step s = .next t → t.readV VF ≠ s.readV VF →
    (∃ x y, i = .addReg x y ∨ i = .sub x y ∨ i = .shr x y ∨ i = .subn x y ∨ i = .shl x y) ∨
    (∃ x y n, i = .drw x y n) ∨
    (∃ nn, i = .ldImm VF nn ∨ i = .addImm VF nn ∨ i = .rnd VF nn) ∨
    (∃ y, i = .ldReg VF y ∨ i = .orReg VF y ∨ i = .andReg VF y ∨ i = .xorReg VF y) ∨
    i = .ldVxDt VF ∨ i = .ldVxK VF ∨ i = .ldRegs VF

/-! ## Jumps, calls, returns, skips -/

/-- R105: pc takes NNN, and nothing else changes. -/
def Obligations.JumpSetsPc : Prop :=
  ∀ (nnn : BitVec 12) (s : State), ∃ t, exec (.jp nnn) s = .next t ∧ t.pc.toNat = nnn.toNat ∧ KeptBut s t [.pc]

/-- R111: pc takes NNN + V0, whatever bits 11:8 hold. That the sum is not reduced is the spec's decision D17. -/
def Obligations.IndexedJumpAddsV0 : Prop :=
  ∀ (nnn : BitVec 12) (s : State), ∃ t, exec (.jpV0 nnn) s = .next t ∧
    t.pc.toNat = nnn.toNat + (s.readV 0).toNat ∧ KeptBut s t [.pc]

/-- R103: a call pushes pc (already the address of the next instruction) and jumps; with 16 entries held it raises
StackOverflow. -/
def Obligations.CallPushesAndJumps : Prop :=
  ∀ (nnn : BitVec 12) (s : State),
    (∀ h : s.sp.val < 16, ∃ t, exec (.call nnn) s = .next t ∧
      t.stack[s.sp.val] = s.pc ∧ (∀ k (hk : k < 16), k ≠ s.sp.val → t.stack[k] = s.stack[k]) ∧
      t.sp.val = s.sp.val + 1 ∧ t.pc.toNat = nnn.toNat ∧ KeptBut s t [.stack, .sp, .pc]) ∧
    (s.sp.val = 16 → exec (.call nnn) s = .fault (.outOfBounds .stackOverflow))

/-- R104: a return takes one from sp and pc from the entry there, which stays in place; with no entry it raises
StackUnderflow. -/
def Obligations.ReturnPops : Prop :=
  ∀ s : State,
    (∀ h : 0 < s.sp.val, ∃ t, exec .ret s = .next t ∧
      t.sp.val = s.sp.val - 1 ∧ t.pc = s.stack[s.sp.val - 1]'(by omega) ∧ KeptBut s t [.sp, .pc]) ∧
    (s.sp.val = 0 → exec .ret s = .fault (.outOfBounds .stackUnderflow))

/-- R106 to R109: the four skips on registers advance pc by 2 more exactly when their condition holds, and change
nothing else. -/
def Obligations.SkipsOnRegisters : Prop :=
  (∀ (x : Reg) (nn : Byte) (s : State), ∃ t, exec (.seImm x nn) s = .next t ∧
    t.pc = (if s.readV x = nn then s.pc + 2 else s.pc) ∧ KeptBut s t [.pc]) ∧
  (∀ (x : Reg) (nn : Byte) (s : State), ∃ t, exec (.sneImm x nn) s = .next t ∧
    t.pc = (if s.readV x = nn then s.pc else s.pc + 2) ∧ KeptBut s t [.pc]) ∧
  (∀ (x y : Reg) (s : State), ∃ t, exec (.seReg x y) s = .next t ∧
    t.pc = (if s.readV x = s.readV y then s.pc + 2 else s.pc) ∧ KeptBut s t [.pc]) ∧
  (∀ (x y : Reg) (s : State), ∃ t, exec (.sneReg x y) s = .next t ∧
    t.pc = (if s.readV x = s.readV y then s.pc else s.pc + 2) ∧ KeptBut s t [.pc])

/-- The table of R29 with R110: how every completed cycle leaves pc. A skip moves it by exactly 4 in all when its
condition holds and by exactly 2 otherwise. -/
def Obligations.CycleMovesPcAsTabled : Prop :=
  ∀ (s t : State) (i : Instr), Fetches s i → step s = .next t → PcAfter i s t.pc

/-- R112: a run of N nested calls followed by N returns ends at the address of the first call plus 2, with sp back
where it was, whenever the stack had room for N entries. -/
def Obligations.CallsAndReturnsPair : Prop :=
  ∀ (s t : State) (targets : List (BitVec 12)), targets ≠ [] → s.sp.val + targets.length ≤ 16 →
    Executes s (targets.map Instr.call ++ List.replicate targets.length Instr.ret) t →
    t.pc = s.pc + 2 ∧ t.sp = s.sp ∧ KeptBut s t [.pc, .stack, .dt, .st] ∧
      ∀ k (h : k < 16), k < s.sp.val → t.stack[k] = s.stack[k]

/-- R27: a completed cycle changes sp or the stack only if it executed a call or a return, and a return changes no
entry. -/
def Obligations.OnlyCallAndReturnTouchStack : Prop :=
  ∀ (s t : State) (i : Instr), Fetches s i → step s = .next t →
    ((∀ nnn, i ≠ .call nnn) → Kept s t .stack) ∧
    ((∀ nnn, i ≠ .call nnn) → i ≠ .ret → Kept s t .sp)

/-! ## Index register and memory -/

/-- R140: I takes NNN; no flag. -/
def Obligations.LoadIndexImmediate : Prop :=
  ∀ (nnn : BitVec 12) (s : State), ∃ t, exec (.ldI nnn) s = .next t ∧ t.i.toNat = nnn.toNat ∧ KeptBut s t [.i]

/-- R141 and R142: I + V[x] modulo 4096 with VF untouched (the spec's decision D2), and the glyph address on all 8
bits of V[x] (its decision D18). -/
def Obligations.IndexAddAndGlyphAddress : Prop :=
  ∀ (x : Reg) (s : State),
    (∃ t, exec (.addI x) s = .next t ∧
      t.i.toNat = (s.i.toNat + (s.readV x).toNat) % 4096 ∧ KeptBut s t [.i]) ∧
    (∃ t, exec (.ldF x) s = .next t ∧
      t.i.toNat = 0x0050 + 5 * (s.readV x).toNat ∧ KeptBut s t [.i])

/-- R26: a completed cycle changes I only if it executed `Annn`, `Fx1E` or `Fx29`. -/
def Obligations.OnlyThreeInstructionsWriteIndex : Prop :=
  ∀ (s t : State) (i : Instr), Fetches s i → step s = .next t → t.i ≠ s.i →
    (∃ nnn, i = .ldI nnn) ∨ (∃ x, i = .addI x ∨ i = .ldF x)

/-- R143: the three digits of V[x] at I, I + 1, I + 2, and no other byte; BcdStore past the end of memory, RomWrite on
the font. That a store into the font raises RomWrite is the spec's decision D5 (R53), that one into the
reserved low memory completes its decision D6 (R52; log entry 10). The premise is the canonical form, part of the invariant that
`StepKeepsInvariant` states. -/
def Obligations.BcdStore : Prop :=
  ∀ (x : Reg) (s : State), s.mem.wf →
    (s.i.toNat + 2 ≤ 0x0FFF → (s.i.toNat < 0x04E ∨ 0x09F < s.i.toNat) → ∃ t, exec (.ldB x) s = .next t ∧
      (t.mem.read s.i.toNat).toNat = (s.readV x).toNat / 100 ∧
      (t.mem.read (s.i.toNat + 1)).toNat = (s.readV x).toNat / 10 % 10 ∧
      (t.mem.read (s.i.toNat + 2)).toNat = (s.readV x).toNat % 10 ∧
      (∀ a, (a < s.i.toNat ∨ s.i.toNat + 2 < a) → t.mem.read a = s.mem.read a) ∧
      t.mem.wf ∧ t.mem.font = s.mem.font ∧ KeptBut s t [.mem]) ∧
    (0x0FFE ≤ s.i.toNat → exec (.ldB x) s = .fault (.outOfBounds .bcdStore)) ∧
    (0x04E ≤ s.i.toNat → s.i.toNat ≤ 0x09F → exec (.ldB x) s = .fault (.outOfBounds .romWrite))

/-- R144: V[0] to V[x] at I on, and no other byte; BlockStore past the end of memory, RomWrite on the font, the range
first. That a store into the font raises RomWrite is the spec's decision D5 (R53), that one into the
reserved low memory completes its decision D6 (R52; log entry 10). -/
def Obligations.BlockStore : Prop :=
  ∀ (x : Reg) (s : State), s.mem.wf →
    (s.i.toNat + x.val ≤ 0x0FFF → (s.i.toNat + x.val < 0x050 ∨ 0x09F < s.i.toNat) →
      ∃ t, exec (.stRegs x) s = .next t ∧
        (∀ r : Reg, r.val ≤ x.val → t.mem.read (s.i.toNat + r.val) = s.readV r) ∧
        (∀ a, (a < s.i.toNat ∨ s.i.toNat + x.val < a) → t.mem.read a = s.mem.read a) ∧
        t.mem.wf ∧ t.mem.font = s.mem.font ∧ KeptBut s t [.mem]) ∧
    (0x0FFF < s.i.toNat + x.val → exec (.stRegs x) s = .fault (.outOfBounds .blockStore)) ∧
    (s.i.toNat + x.val ≤ 0x0FFF → 0x050 ≤ s.i.toNat + x.val → s.i.toNat ≤ 0x09F →
      exec (.stRegs x) s = .fault (.outOfBounds .romWrite))

/-- R145: V[0] to V[x] take the bytes at I on, from any region; the registers above, I and memory are kept; BlockLoad
past the end of memory. -/
def Obligations.BlockLoad : Prop :=
  ∀ (x : Reg) (s : State),
    (s.i.toNat + x.val ≤ 0x0FFF → ∃ t, exec (.ldRegs x) s = .next t ∧
      (∀ r : Reg, r.val ≤ x.val → t.readV r = s.mem.read (s.i.toNat + r.val)) ∧
      (∀ r : Reg, x.val < r.val → t.readV r = s.readV r) ∧ KeptBut s t [.v]) ∧
    (0x0FFF < s.i.toNat + x.val → exec (.ldRegs x) s = .fault (.outOfBounds .blockLoad))

/-- R147: `Fx55` and later `Fx65` with the same x restore V[0] to V[x], from any state in which I and the stored bytes
are as the `Fx55` left them, whatever the registers hold by then. -/
def Obligations.StoreThenLoadRestoresRegisters : Prop :=
  ∀ (x : Reg) (s t u : State), s.mem.wf → exec (.stRegs x) s = .next t → u.i = t.i →
    (∀ k, k ≤ x.val → u.mem.read (t.i.toNat + k) = t.mem.read (t.i.toNat + k)) →
    ∃ w, exec (.ldRegs x) u = .next w ∧ ∀ r : Reg, r.val ≤ x.val → w.readV r = s.readV r

/-- R65, which the spec marks as derived: a store into the bytes at pc is what the next cycle fetches. -/
def Obligations.StoredBytesAreFetched : Prop :=
  ∀ (x : Reg) (k : Nat) (hk : k + 1 < 16) (s t : State) (i : Instr), s.mem.wf → k + 1 ≤ x.val →
    exec (.stRegs x) s = .next t → t.pc.toNat = s.i.toNat + k →
    decode (wordOfBytes (s.readV ⟨k, by omega⟩) (s.readV ⟨k + 1, by omega⟩)) = some i → Fetches t i

/-- R60, R61: a completed cycle changes a byte of memory only if it executed `Fx33` or `Fx55`, and then only a byte of
its range at I; never the font (the ban is the spec's decision D5). -/
def Obligations.OnlyStoresChangeMemory : Prop :=
  ∀ (s t : State) (i : Instr), Fetches s i → step s = .next t →
    t.mem.font = s.mem.font ∧
    ∀ a, t.mem.read a ≠ s.mem.read a →
      (a < 0x050 ∨ 0x09F < a) ∧ a ≤ 0x0FFF ∧
      ((∃ x, i = .ldB x ∧ s.i.toNat ≤ a ∧ a ≤ s.i.toNat + 2) ∨
        (∃ x, i = .stRegs x ∧ s.i.toNat ≤ a ∧ a ≤ s.i.toNat + x.val))

/-! ## Clear screen and draw -/

/-- R150: every cell clear, VF and the rest kept; twice is once. -/
def Obligations.ClearScreen : Prop :=
  ∀ s : State, ∃ t, exec .cls s = .next t ∧ (∀ col row, t.cell col row = false) ∧ KeptBut s t [.fb] ∧
    exec .cls t = .next t

/-- R151: a draw whose sprite lies in memory and whose set bits lie on the screen toggles exactly the cells of its set
bits and leaves the collision in VF, the position and the sprite being read before; otherwise DrawMemory, or
DrawFramebuffer, and nothing is drawn. That a set bit off the screen raises DrawFramebuffer is the spec's decision D3
(R152), that a position taken from VF is its old value its decision D4 (R153(d); log entry 10). -/
def Obligations.DrawTogglesSetBits : Prop :=
  ∀ (x y : Reg) (n : BitVec 4) (s : State),
    (s.i.toNat + n.toNat ≤ 4096 → ¬ OffScreen s (s.readV x).toNat (s.readV y).toNat n.toNat →
      ∃ t, exec (.drw x y n) s = .next t ∧
        (∀ col row, (Toggles s (s.readV x).toNat (s.readV y).toNat n.toNat col row →
            t.cell col row = !s.cell col row) ∧
          (¬ Toggles s (s.readV x).toNat (s.readV y).toNat n.toNat col row → t.cell col row = s.cell col row)) ∧
        (t.readV VF = 1 ↔ ∃ col row, Toggles s (s.readV x).toNat (s.readV y).toNat n.toNat col row ∧
          s.cell col row = true ∧ t.cell col row = false) ∧
        (t.readV VF = 1 ∨ t.readV VF = 0) ∧ RegsKeptBut s t [VF] ∧ KeptBut s t [.fb, .v]) ∧
    (4096 < s.i.toNat + n.toNat → exec (.drw x y n) s = .fault (.outOfBounds .drawMemory)) ∧
    (s.i.toNat + n.toNat ≤ 4096 → OffScreen s (s.readV x).toNat (s.readV y).toNat n.toNat →
      exec (.drw x y n) s = .fault (.outOfBounds .drawFramebuffer))

/-- R153(f): the same draw twice (its position not taken from VF, which the first draw overwrites) completes again and
gives the framebuffer back; over a clear region the first draw reports no collision, and the second reports one
exactly when the sprite has a set bit. -/
def Obligations.DrawTwiceRestores : Prop :=
  ∀ (x y : Reg) (n : BitVec 4) (s t : State), x ≠ VF → y ≠ VF → exec (.drw x y n) s = .next t →
    ∃ u, exec (.drw x y n) t = .next u ∧ (∀ col row, u.cell col row = s.cell col row) ∧
      ((∀ col row, Toggles s (s.readV x).toNat (s.readV y).toNat n.toNat col row → s.cell col row = false) →
        t.readV VF = 0 ∧
        (u.readV VF = 1 ↔ ∃ col row, Toggles s (s.readV x).toNat (s.readV y).toNat n.toNat col row))

/-- R34: the framebuffer is mutated only by clear-screen and draw. -/
def Obligations.OnlyClearAndDrawChangeFramebuffer : Prop :=
  ∀ (s t : State) (i : Instr), Fetches s i → step s = .next t → i ≠ .cls → (∀ x y n, i ≠ .drw x y n) →
    ∀ col row, t.cell col row = s.cell col row

/-! ## Timers -/

/-- R161, R162, R163 at the execute step: DT into V[x], V[x] into DT, V[x] into ST. -/
def Obligations.TimerMoves : Prop :=
  ∀ (x : Reg) (s : State),
    (∃ t, exec (.ldVxDt x) s = .next t ∧ t.readV x = s.dt ∧ RegsKeptBut s t [x] ∧ KeptBut s t [.v]) ∧
    (∃ t, exec (.ldDtVx x) s = .next t ∧ t.dt = s.readV x ∧ KeptBut s t [.dt]) ∧
    (∃ t, exec (.ldStVx x) s = .next t ∧ t.st = s.readV x ∧ KeptBut s t [.st])

/-- R161 to R163 over the whole cycle: `Fx07` reads DT before this cycle's tick, and a value written by `Fx15` or
`Fx18` is decremented in the same cycle (a consequence the spec marks as derived in R161 and R162). -/
def Obligations.TimerMovesTickInSameCycle : Prop :=
  ∀ (x : Reg) (s : State),
    (Fetches s (.ldVxDt x) → ∃ t, step s = .next t ∧ t.readV x = s.dt ∧ t.dt.toNat = s.dt.toNat - 1) ∧
    (Fetches s (.ldDtVx x) → ∃ t, step s = .next t ∧
      t.dt.toNat = (s.readV x).toNat - 1 ∧ t.st.toNat = s.st.toNat - 1) ∧
    (Fetches s (.ldStVx x) → ∃ t, step s = .next t ∧
      t.st.toNat = (s.readV x).toNat - 1 ∧ t.dt.toNat = s.dt.toNat - 1)

/-! ## Keypad -/

/-- R170, R171: with a key index in V[x], exactly one of the two skips, by the state of that key; above 15 both raise
Keypad (the spec's decision D7). -/
def Obligations.SkipsOnKeys : Prop :=
  ∀ (x : Reg) (s : State),
    (∀ h : (s.readV x).toNat < 16,
      (∃ t, exec (.skp x) s = .next t ∧
        t.pc = (if s.keys[(s.readV x).toNat] = true then s.pc + 2 else s.pc) ∧ KeptBut s t [.pc]) ∧
      (∃ t, exec (.sknp x) s = .next t ∧
        t.pc = (if s.keys[(s.readV x).toNat] = true then s.pc else s.pc + 2) ∧ KeptBut s t [.pc])) ∧
    (15 < (s.readV x).toNat →
      exec (.skp x) s = .fault (.outOfBounds .keypad) ∧ exec (.sknp x) s = .fault (.outOfBounds .keypad))

/-- R172: with a key pressed, V[x] takes the least index pressed; with none, pc goes back by 2. That the first is the
lowest, that the level counts, and that no wait state exists are the spec's decision D11. -/
def Obligations.WaitForKey : Prop :=
  ∀ (x : Reg) (s : State),
    (∀ k (h : k < 16), s.keys[k] = true → (∀ j (hj : j < k), s.keys[j] = false) →
      ∃ t, exec (.ldVxK x) s = .next t ∧ (t.readV x).toNat = k ∧ RegsKeptBut s t [x] ∧ KeptBut s t [.v]) ∧
    ((∀ k (h : k < 16), s.keys[k] = false) →
      ∃ t, exec (.ldVxK x) s = .next t ∧ t.pc = s.pc - 2 ∧ KeptBut s t [.pc])

/-- R172(b), R164: a waiting cycle completes and changes nothing but the timers, which tick; the same instruction is
at pc again (decision D11). -/
def Obligations.WaitingCycleOnlyTicks : Prop :=
  ∀ (x : Reg) (s : State), Fetches s (.ldVxK x) → (∀ k (h : k < 16), s.keys[k] = false) →
    ∃ t, step s = .next t ∧ t.dt.toNat = s.dt.toNat - 1 ∧ t.st.toNat = s.st.toNat - 1 ∧ KeptBut s t [.dt, .st] ∧
      Fetches t (.ldVxK x)

/-- R36, R173: no cycle changes a key. -/
def Obligations.NoCycleChangesKeys : Prop := ∀ (s t : State), step s = .next t → t.keys = s.keys

/-! ## Reset, load, host, invariant -/

/-- R210: every piece of state after reset, for every FONT; the machine's reset is one of these (its FONT is the
default of R54, log entry 1, and nothing here rests on that). -/
def Obligations.ResetValues : Prop :=
  (∃ font, State.reset = State.resetWith font) ∧
  ∀ font : Vector Byte 80,
    (∀ r, (State.resetWith font).readV r = 0) ∧ (State.resetWith font).i = 0 ∧
    (State.resetWith font).pc = 0x0200 ∧ (State.resetWith font).sp = 0 ∧
    (∀ k (h : k < 16), (State.resetWith font).stack[k] = 0) ∧
    (State.resetWith font).dt = 0 ∧ (State.resetWith font).st = 0 ∧
    (∀ col row, (State.resetWith font).cell col row = false) ∧
    (∀ k (h : k < 16), (State.resetWith font).keys[k] = false) ∧
    (∀ k (h : k < 80), (State.resetWith font).mem.read (0x050 + k) = font[k]) ∧
    (∀ a, (a < 0x050 ∨ 0x09F < a) → (State.resetWith font).mem.read a = 0)

/-- R212, the spec's decision D16: a reset of a running core leaves every piece of state as R210 does, the loaded
program cleared, whatever the state was. -/
def Obligations.ResetOfRunningCore : Prop :=
  ∀ s : State, hostOp s .reset = .next (afterHostOp s .reset) ∧
    KeptBut (State.resetWith s.mem.font) (afterHostOp s .reset) [.draws] ∧
    ∀ a, 0x200 ≤ a → (afterHostOp s .reset).mem.read a = 0

/-- R213, R214: load puts the bytes at 0x200 on and changes nothing else, up to 3584 bytes; one byte more raises
LoadTooLarge and leaves the state as it was. -/
def Obligations.LoadWritesProgram : Prop :=
  ∀ (s : State) (bytes : List Byte), s.mem.wf →
    (bytes.length ≤ 3584 → ∃ t, s.load bytes = .next t ∧
      (∀ k (h : k < bytes.length), t.mem.read (0x200 + k) = bytes[k]) ∧
      (∀ a, (a < 0x200 ∨ 0x200 + bytes.length ≤ a) → t.mem.read a = s.mem.read a) ∧
      t.mem.wf ∧ t.mem.font = s.mem.font ∧ KeptBut s t [.mem]) ∧
    (3584 < bytes.length → s.load bytes = .fault (.loadTooLarge bytes.length) ∧ afterHostOp s (.load bytes) = s)

/-- R216: setting key k changes that key and nothing else. -/
def Obligations.SetKeyChangesOneKey : Prop :=
  ∀ (s : State) (k : Fin 16) (p : Bool), (s.setKey k p).keys[k.val] = p ∧
    (∀ j (h : j < 16), j ≠ k.val → (s.setKey k p).keys[j] = s.keys[j]) ∧ KeptBut s (s.setKey k p) [.keys]

/-- R39 at reset, for every FONT. -/
def Obligations.ResetMeetsInvariant : Prop := ∀ font : Vector Byte 80, (State.resetWith font).Inv

/-- R39, which the spec marks as derived: every completed cycle keeps the invariant, from every state that meets it,
reached or not: memory canonical and its font untouched, I ≤ 0x0FFF, pc ≤ 0x10FE, live stack entries ≤ 0x1000. -/
def Obligations.StepKeepsInvariant : Prop := ∀ (s t : State), s.Inv → step s = .next t → t.Inv

/-- R39 over the whole interface of R216: after reset and any number of cycles, loads, key updates and resets, faults
among them, the invariant holds. -/
def Obligations.ReachableStatesMeetInvariant : Prop := ∀ s : State, Reachable s → s.Inv
end

