-- ==== Sys2Proof/Laws/Decode.lean ====
section
/-! SUPPORT. The fields of an encoded word (spec/30_encoding.md R81, R82), and that the types of `Instr` carry the
bounds of `WellFormed`. -/

namespace Sys2Proof

/-- The types of `Instr` carry the bounds, so no instruction is ill-formed. -/
theorem Instr.wellFormed (i : Instr) : i.WellFormed := by
  have h4 : ∀ b : BitVec 4, b.toNat < 16 := fun b => b.isLt
  have h8 : ∀ b : BitVec 8, b.toNat < 256 := fun b => b.isLt
  have h12 : ∀ b : BitVec 12, b.toNat < 4096 := fun b => b.isLt
  cases i <;> simp [Instr.WellFormed, Instr.operands, RawOperands.wf, h4, h8, h12]

/-! ## The fields as numbers (R82) -/

theorem opField_toNat (w : Word) : (opField w).toNat = w.toNat / 4096 % 16 := by
  simp [opField, Nat.shiftRight_eq_div_pow]

theorem xField_val (w : Word) : (xField w).val = w.toNat / 256 % 16 := by
  simp [xField, Nat.shiftRight_eq_div_pow]

theorem yField_val (w : Word) : (yField w).val = w.toNat / 16 % 16 := by
  simp [yField, Nat.shiftRight_eq_div_pow]

theorem nField_toNat (w : Word) : (nField w).toNat = w.toNat % 16 := by
  simp [nField]

theorem nnField_toNat (w : Word) : (nnField w).toNat = w.toNat % 256 := by
  simp [nnField]

theorem nnnField_toNat (w : Word) : (nnnField w).toNat = w.toNat % 4096 := by
  simp [nnnField]

/-! ## The formats as numbers (R81) -/

/-- Concatenation places the high part above the low one. -/
theorem append_toNat {m n : Nat} (a : BitVec m) (b : BitVec n) : (a ++ b).toNat = a.toNat * 2 ^ n + b.toNat := by
  rw [BitVec.toNat_append, ← Nat.shiftLeft_add_eq_or_of_lt b.isLt, Nat.shiftLeft_eq]

theorem encNNN_toNat (op : BitVec 4) (a : BitVec 12) : (encNNN op a).toNat = op.toNat * 4096 + a.toNat := by
  unfold encNNN
  exact append_toNat op a

theorem encXNN_toNat (op : BitVec 4) (x : Reg) (nn : Byte) :
    (encXNN op x nn).toNat = op.toNat * 4096 + x.val * 256 + nn.toNat := by
  have h1 : (encXNN op x nn).toNat = (op ++ (BitVec.ofFin x : BitVec 4)).toNat * 2 ^ 8 + nn.toNat := append_toNat _ _
  have h2 := append_toNat op (BitVec.ofFin x : BitVec 4)
  have h3 : (BitVec.ofFin x : BitVec 4).toNat = x.val := rfl
  rw [h1, h2, h3]
  omega

theorem encXYN_toNat (op : BitVec 4) (x y : Reg) (n : BitVec 4) :
    (encXYN op x y n).toNat = op.toNat * 4096 + x.val * 256 + y.val * 16 + n.toNat := by
  have h1 : (encXYN op x y n).toNat =
    (op ++ (BitVec.ofFin x : BitVec 4) ++ (BitVec.ofFin y : BitVec 4)).toNat * 2 ^ 4 + n.toNat := append_toNat _ _
  have h2 := append_toNat (op ++ (BitVec.ofFin x : BitVec 4)) (BitVec.ofFin y : BitVec 4)
  have h3 := append_toNat op (BitVec.ofFin x : BitVec 4)
  have h4 : (BitVec.ofFin x : BitVec 4).toNat = x.val := rfl
  have h5 : (BitVec.ofFin y : BitVec 4).toNat = y.val := rfl
  rw [h1, h2, h3, h4, h5]
  omega

/-- R56: the word of two bytes. -/
theorem wordOfBytes_toNat (hi lo : Byte) : (wordOfBytes hi lo).toNat = hi.toNat * 256 + lo.toNat := by
  unfold wordOfBytes
  exact append_toNat hi lo

/-! ## Each format gives its fields back -/

section
variable (op : BitVec 4) (a : BitVec 12) (x y : Reg) (nn : Byte) (n : BitVec 4)

@[simp] theorem opField_encNNN : opField (encNNN op a) = op := by
  have := op.isLt; have := a.isLt
  apply BitVec.eq_of_toNat_eq; rw [opField_toNat, encNNN_toNat]; omega

@[simp] theorem nnnField_encNNN : nnnField (encNNN op a) = a := by
  have := a.isLt
  apply BitVec.eq_of_toNat_eq; rw [nnnField_toNat, encNNN_toNat]; omega

@[simp] theorem opField_encXNN : opField (encXNN op x nn) = op := by
  have := op.isLt; have := x.isLt; have := nn.isLt
  apply BitVec.eq_of_toNat_eq; rw [opField_toNat, encXNN_toNat]; omega

@[simp] theorem xField_encXNN : xField (encXNN op x nn) = x := by
  have := x.isLt; have := nn.isLt
  apply Fin.ext; rw [xField_val, encXNN_toNat]; omega

@[simp] theorem nnField_encXNN : nnField (encXNN op x nn) = nn := by
  have := nn.isLt
  apply BitVec.eq_of_toNat_eq; rw [nnField_toNat, encXNN_toNat]; omega

@[simp] theorem opField_encXYN : opField (encXYN op x y n) = op := by
  have := op.isLt; have := x.isLt; have := y.isLt; have := n.isLt
  apply BitVec.eq_of_toNat_eq; rw [opField_toNat, encXYN_toNat]; omega

@[simp] theorem xField_encXYN : xField (encXYN op x y n) = x := by
  have := x.isLt; have := y.isLt; have := n.isLt
  apply Fin.ext; rw [xField_val, encXYN_toNat]; omega

@[simp] theorem yField_encXYN : yField (encXYN op x y n) = y := by
  have := y.isLt; have := n.isLt
  apply Fin.ext; rw [yField_val, encXYN_toNat]; omega

@[simp] theorem nField_encXYN : nField (encXYN op x y n) = n := by
  have := n.isLt
  apply BitVec.eq_of_toNat_eq; rw [nField_toNat, encXYN_toNat]; omega

end

/-! ## The masks of R84 -/

theorem and_ones4 : ∀ op : BitVec 4, op &&& 0xF#4 = op := by decide

theorem and_ones8 (nn : Byte) : nn &&& 0xFF#8 = nn := BitVec.and_allOnes

/-- Mask F000 keeps the top nibble of format NNN. -/
theorem encNNN_and_F000 (op : BitVec 4) (a : BitVec 12) : encNNN op a &&& 0xF000 = encNNN op 0 := by
  unfold encNNN
  have h : (0xF000 : Word) = (0xF#4 ++ 0#12 : BitVec (4 + 12)) := by decide
  rw [h]
  exact BitVec.and_append.trans (by simp [and_ones4])

/-- Mask F000 keeps the top nibble of format XNN. -/
theorem encXNN_and_F000 (op : BitVec 4) (x : Reg) (nn : Byte) : encXNN op x nn &&& 0xF000 = encXNN op 0 0 := by
  have h : (0xF000 : Word) = (0xF#4 ++ 0#4 ++ 0#8 : BitVec (4 + 4 + 8)) := by decide
  rw [h]
  refine BitVec.and_append.trans ?_
  rw [BitVec.and_append, and_ones4, BitVec.and_zero, BitVec.and_zero]
  rfl

/-- Mask F0FF keeps the top nibble and the low byte of format XKK. -/
theorem encXNN_and_F0FF (op : BitVec 4) (x : Reg) (nn : Byte) : encXNN op x nn &&& 0xF0FF = encXNN op 0 nn := by
  have h : (0xF0FF : Word) = (0xF#4 ++ 0#4 ++ 0xFF#8 : BitVec (4 + 4 + 8)) := by decide
  rw [h]
  refine BitVec.and_append.trans ?_
  rw [BitVec.and_append, and_ones4, BitVec.and_zero, and_ones8]
  rfl

/-- Mask F00F keeps the top and the low nibble of format XYN. -/
theorem encXYN_and_F00F (op : BitVec 4) (x y : Reg) (n : BitVec 4) : encXYN op x y n &&& 0xF00F = encXYN op 0 0 n := by
  have h : (0xF00F : Word) = (0xF#4 ++ 0#4 ++ 0#4 ++ 0xF#4 : BitVec (4 + 4 + 4 + 4)) := by decide
  rw [h]
  refine BitVec.and_append.trans ?_
  rw [BitVec.and_append, BitVec.and_append, and_ones4, and_ones4, BitVec.and_zero, BitVec.and_zero]
  rfl

/-- Mask F000 keeps the top nibble of format XYN. -/
theorem encXYN_and_F000 (op : BitVec 4) (x y : Reg) (n : BitVec 4) : encXYN op x y n &&& 0xF000 = encXYN op 0 0 0 := by
  have h : (0xF000 : Word) = (0xF#4 ++ 0#4 ++ 0#4 ++ 0#4 : BitVec (4 + 4 + 4 + 4)) := by decide
  rw [h]
  refine BitVec.and_append.trans ?_
  rw [BitVec.and_append, BitVec.and_append, and_ones4, BitVec.and_zero, BitVec.and_zero, BitVec.and_zero]
  rfl

end Sys2Proof
end

