-- ==== Sys2Proof/Laws/Memory.lean ====
section
/-! SUPPORT. Reading, writing and the canonical form of memory (spec/20_memory.md): what a byte reads as after a write,
and that every memory operation keeps `Memory.wf`. -/

namespace Sys2Proof.Machine

/-! ## One cell -/

theorem lookupCell_setCell_same (d : Byte) (a : Nat) (b : Byte) :
    ∀ cs : List Host.Cell, cs.Pairwise (fun c e => c.1 < e.1) → (lookupCell (setCell d a b cs) a).getD d = b
  | [], _ => by
    by_cases hb : b = d <;> simp [setCell, hb, lookupCell]
  | c :: cs, h => by
    have hcs : cs.Pairwise (fun c e => c.1 < e.1) := (List.pairwise_cons.mp h).2
    have hlt := (List.pairwise_cons.mp h).1
    have habsent : ∀ es : List Host.Cell, (∀ e ∈ es, a < e.1) → lookupCell es a = none := by
      intro es
      induction es with
      | nil => intro _; rfl
      | cons e es ih =>
        intro hes
        have he : a ≠ e.1 := Nat.ne_of_lt (hes e (by simp))
        simp [lookupCell, he, ih (fun e' he' => hes e' (by simp [he']))]
    unfold setCell
    split
    · rename_i hac
      have hnone : lookupCell (c :: cs) a = none :=
        habsent _ (by intro e he; rcases List.mem_cons.mp he with rfl | he
                      · exact hac
                      · exact Nat.lt_trans hac (hlt e he))
      split
      · rename_i hbd; simp [hnone, hbd]
      · simp [lookupCell]
    · split
      · rename_i _ hac
        split
        · rename_i hbd
          have hnone : lookupCell cs a = none := habsent _ (fun e he => hac ▸ hlt e he)
          simp [hnone, hbd]
        · simp [lookupCell]
      · rename_i _ hac
        simpa [lookupCell, hac] using lookupCell_setCell_same d a b cs hcs

theorem lookupCell_setCell_other (d : Byte) (a p : Nat) (b : Byte) (hp : p ≠ a) :
    ∀ cs : List Host.Cell, lookupCell (setCell d a b cs) p = lookupCell cs p
  | [] => by
    by_cases hb : b = d <;> simp [setCell, hb, lookupCell, hp]
  | c :: cs => by
    unfold setCell
    split
    · split <;> simp [lookupCell, hp]
    · split
      · rename_i _ hac
        subst hac
        split <;> simp [lookupCell, hp]
      · simp [lookupCell, lookupCell_setCell_other d a p b hp cs]

theorem mem_setCell {d : Byte} {a : Nat} {b : Byte} {e : Host.Cell} :
    ∀ {cs : List Host.Cell}, e ∈ setCell d a b cs → (e = (a, b) ∧ b ≠ d) ∨ e ∈ cs
  | [], h => by
    by_cases hb : b = d
    · simp [setCell, hb] at h
    · simp [setCell, hb] at h; exact .inl ⟨h, hb⟩
  | c :: cs, h => by
    unfold setCell at h
    split at h
    · split at h
      · exact .inr h
      · rename_i hb
        rcases List.mem_cons.mp h with rfl | h
        · exact .inl ⟨rfl, hb⟩
        · exact .inr h
    · split at h
      · split at h
        · exact .inr (List.mem_cons_of_mem _ h)
        · rename_i hb
          rcases List.mem_cons.mp h with rfl | h
          · exact .inl ⟨rfl, hb⟩
          · exact .inr (List.mem_cons_of_mem _ h)
      · rcases List.mem_cons.mp h with rfl | h
        · exact .inr (by simp)
        · rcases mem_setCell h with h | h
          · exact .inl h
          · exact .inr (List.mem_cons_of_mem _ h)

theorem setCell_rising (d : Byte) (a : Nat) (b : Byte) :
    ∀ cs : List Host.Cell, cs.Pairwise (fun c e => c.1 < e.1) →
      (setCell d a b cs).Pairwise (fun c e => c.1 < e.1)
  | [], _ => by
    by_cases hb : b = d <;> simp [setCell, hb]
  | c :: cs, h => by
    have hcs := (List.pairwise_cons.mp h).2
    have hlt := (List.pairwise_cons.mp h).1
    unfold setCell
    split
    · rename_i hac
      split
      · exact h
      · refine List.pairwise_cons.mpr ⟨fun e he => ?_, h⟩
        rcases List.mem_cons.mp he with rfl | he
        · exact hac
        · exact Nat.lt_trans hac (hlt e he)
    · split
      · rename_i _ hac
        split
        · exact hcs
        · exact List.pairwise_cons.mpr ⟨fun e he => hac ▸ hlt e he, hcs⟩
      · rename_i h1 h2
        refine List.pairwise_cons.mpr ⟨fun e he => ?_, setCell_rising d a b cs hcs⟩
        rcases mem_setCell he with ⟨rfl, -⟩ | he
        · show c.1 < a
          omega
        · exact hlt e he

/-! ## One byte -/

@[simp] theorem Memory.write_font (m : Memory) (a : Nat) (b : Byte) : (m.write a b).font = m.font := rfl

@[simp] theorem Memory.write_unlisted (m : Memory) (a p : Nat) (b : Byte) :
    (m.write a b).unlisted p = m.unlisted p := rfl

/-- R61: the byte written reads as the value written. -/
theorem Memory.read_write_same (m : Memory) (a : Nat) (b : Byte) (h : m.wf) : (m.write a b).read a = b :=
  lookupCell_setCell_same _ a b _ h.1

/-- R61: every other byte reads as before. -/
theorem Memory.read_write_other (m : Memory) (a p : Nat) (b : Byte) (hp : p ≠ a) :
    (m.write a b).read p = m.read p := by
  simp [Memory.read, Memory.write, lookupCell_setCell_other _ a p b hp, Memory.unlisted]

/-- A write inside the address space keeps the canonical form. -/
theorem Memory.write_wf (m : Memory) (a : Nat) (b : Byte) (ha : a < 4096) (h : m.wf) : (m.write a b).wf := by
  refine ⟨setCell_rising _ a b _ h.1, fun c hc => ?_⟩
  rcases mem_setCell hc with ⟨rfl, hb⟩ | hc
  · exact ⟨ha, hb⟩
  · exact h.2 c hc

/-! ## Runs of bytes -/

@[simp] theorem Memory.writeBytes_font (bs : List Byte) : ∀ (m : Memory) (a : Nat), (m.writeBytes a bs).font = m.font := by
  induction bs with
  | nil => intro m a; rfl
  | cons b bs ih => intro m a; simp [Memory.writeBytes, ih]

theorem Memory.writeBytes_wf (bs : List Byte) :
    ∀ (m : Memory) (a : Nat), a + bs.length ≤ 4096 → m.wf → (m.writeBytes a bs).wf := by
  induction bs with
  | nil => intro m a _ h; exact h
  | cons b bs ih =>
    intro m a ha h
    simp only [List.length_cons] at ha
    exact ih _ _ (by omega) (m.write_wf a b (by omega) h)

/-- A byte outside the run reads as before. -/
theorem Memory.read_writeBytes_outside (bs : List Byte) :
    ∀ (m : Memory) (a p : Nat), (p < a ∨ a + bs.length ≤ p) → (m.writeBytes a bs).read p = m.read p := by
  induction bs with
  | nil => intro m a p _; rfl
  | cons b bs ih =>
    intro m a p hp
    simp only [List.length_cons] at hp
    simp only [Memory.writeBytes]
    rw [ih _ _ _ (by omega), Memory.read_write_other _ _ _ _ (by omega)]

/-- A byte of the run reads as the byte written there. -/
theorem Memory.read_writeBytes_inside (bs : List Byte) :
    ∀ (m : Memory) (a k : Nat) (hk : k < bs.length), a + bs.length ≤ 4096 → m.wf →
      (m.writeBytes a bs).read (a + k) = bs[k] := by
  induction bs with
  | nil => intro m a k hk; simp at hk
  | cons b bs ih =>
    intro m a k hk ha h
    simp only [List.length_cons] at ha hk
    simp only [Memory.writeBytes]
    cases k with
    | zero =>
      rw [Memory.read_writeBytes_outside _ _ _ _ (by omega)]
      exact m.read_write_same a b h
    | succ k =>
      have := ih (m.write a b) (a + 1) k (by omega) (by omega) (m.write_wf a b (by omega) h)
      simpa [Nat.add_assoc, Nat.add_comm 1 k] using this

@[simp] theorem Memory.readBytes_length (m : Memory) (a n : Nat) : (m.readBytes a n).length = n := by
  simp [Memory.readBytes]

@[simp] theorem Memory.getElem_readBytes (m : Memory) (a n k : Nat) (h : k < (m.readBytes a n).length) :
    (m.readBytes a n)[k] = m.read (a + k) := by
  simp [Memory.readBytes]

/-- Memory with nothing listed is canonical. -/
theorem Memory.wf_nil (font : Vector Byte 80) : Memory.wf ⟨font, []⟩ := by
  simp [Memory.wf]

/-- R37: what memory reads as after reset. -/
theorem Memory.read_nil (font : Vector Byte 80) (a : Nat) :
    Memory.read ⟨font, []⟩ a = if inFont a then font.getD (a - 0x050) 0 else 0 := rfl

/-- R54: glyph byte `k` of FONT is what 0x050 + k reads as unlisted. -/
theorem Memory.unlisted_font (m : Memory) (k : Nat) (h : k < 80) : m.unlisted (0x050 + k) = m.font[k] := by
  have h1 : 0x050 + k ≤ 0x09F := by omega
  simp only [Memory.unlisted, inFont, Nat.le_add_right, h1, decide_true, Bool.and_self, if_true,
    Nat.add_sub_cancel_left]
  simp [Vector.getD, h]

/-- R37: every other address reads as zero unlisted. -/
theorem Memory.unlisted_other (m : Memory) (a : Nat) (h : a < 0x050 ∨ 0x09F < a) : m.unlisted a = 0 := by
  have : inFont a = false := by
    simp only [inFont, Bool.and_eq_false_iff, decide_eq_false_iff_not]; omega
  simp [Memory.unlisted, this]

end Sys2Proof.Machine
end

