-- ==== Sys2Proof/Laws/Ops.lean ====
section
/-! SUPPORT. One lemma for each shared operation that says what it can do; the meanings' proofs cite these. -/

namespace Sys2Proof.Machine

/-! ## Registers -/

@[simp] theorem State.readV_writeV (s : State) (r q : Reg) (b : Byte) :
    (s.writeV r b).readV q = if q = r then b else s.readV q := by
  simp only [State.readV, State.writeV_v, Vector.getElem_set]
  by_cases h : q = r
  · simp [h]
  · have : r.val ≠ q.val := fun e => h (Fin.ext e.symm)
    simp [h, this]

@[simp] theorem State.readV_writeFlag (s : State) (q : Reg) (f : Bool) :
    (s.writeFlag f).readV q = if q = VF then flagByte f else s.readV q := s.readV_writeV VF q _

@[simp] theorem State.readV_loadRegs (s : State) (x q : Reg) (base : Nat) :
    (s.loadRegs x base).readV q = if q.val ≤ x.val then s.mem.read (base + q.val) else s.readV q := by
  simp [State.readV]

/-- An update that leaves `v` alone leaves every register alone. -/
theorem State.readV_congr {s t : State} (h : t.v = s.v) (q : Reg) : t.readV q = s.readV q := by
  simp only [State.readV, h]

@[simp] theorem State.readV_setI (s : State) (a : Word) (q : Reg) : (s.setI a).readV q = s.readV q := rfl
@[simp] theorem State.readV_setPc (s : State) (a : Word) (q : Reg) : (s.setPc a).readV q = s.readV q := rfl
@[simp] theorem State.readV_advance (s : State) (q : Reg) : s.advance.readV q = s.readV q := rfl
@[simp] theorem State.readV_skipIf (s : State) (c : Bool) (q : Reg) : (s.skipIf c).readV q = s.readV q :=
  State.readV_congr (by simp) q
@[simp] theorem State.readV_setDt (s : State) (b : Byte) (q : Reg) : (s.setDt b).readV q = s.readV q := rfl
@[simp] theorem State.readV_setSt (s : State) (b : Byte) (q : Reg) : (s.setSt b).readV q = s.readV q := rfl
@[simp] theorem State.readV_tick (s : State) (q : Reg) : s.tick.readV q = s.readV q := rfl
@[simp] theorem State.readV_setMem (s : State) (m : Memory) (q : Reg) : (s.setMem m).readV q = s.readV q := rfl
@[simp] theorem State.readV_setFb (s : State) (fb : Vector (BitVec 64) 32) (q : Reg) :
    (s.setFb fb).readV q = s.readV q := rfl
@[simp] theorem State.readV_draw (s : State) (q : Reg) : s.draw.2.readV q = s.readV q := rfl
@[simp] theorem State.readV_setKey (s : State) (k : Fin 16) (p : Bool) (q : Reg) :
    (s.setKey k p).readV q = s.readV q := rfl

@[simp] theorem State.readV_resetWith (font : Vector Byte 80) (q : Reg) : (State.resetWith font).readV q = 0 := by
  simp [State.readV]

/-! ## Flags -/

theorem flagByte_eq_one (f : Bool) : flagByte f = 1 ↔ f = true := by cases f <;> decide

theorem flagByte_eq_zero (f : Bool) : flagByte f = 0 ↔ f = false := by cases f <;> decide

/-! ## Timers -/

/-- R160 as one subtraction of natural numbers. -/
theorem decay_toNat (b : Byte) : (decay b).toNat = b.toNat - 1 := by
  unfold decay
  split
  · rename_i h; subst h; rfl
  · rename_i h
    have : b.toNat ≠ 0 := fun e => h (by apply BitVec.eq_of_toNat_eq; simpa using e)
    have hb := b.isLt
    rw [BitVec.toNat_sub]
    show (2 ^ 8 - 1 + b.toNat) % 2 ^ 8 = b.toNat - 1
    omega

/-! ## Stack -/

/-- R103: what a push does. -/
theorem State.push_of_lt (s : State) (a : Word) (h : s.sp.val < 16) :
    s.push a = .next { s with stack := s.stack.set s.sp.val a, sp := ⟨s.sp.val + 1, by omega⟩ } := dif_pos h

theorem State.push_full (s : State) (a : Word) (h : s.sp.val = 16) : s.push a = raise .stackOverflow :=
  dif_neg (by omega)

/-- R104: what a pop does. -/
theorem State.popPc_of_pos (s : State) (h : 0 < s.sp.val) :
    s.popPc = .next { s with sp := ⟨s.sp.val - 1, by omega⟩, pc := s.stack[s.sp.val - 1] } := dif_pos h

theorem State.popPc_empty (s : State) (h : s.sp.val = 0) : s.popPc = raise .stackUnderflow :=
  dif_neg (by omega)

/-! ## Operand forms -/

@[simp] theorem zextAddr_toNat (nnn : BitVec 12) : (zextAddr nnn).toNat = nnn.toNat := by
  have := nnn.isLt
  simp [zextAddr]; omega

theorem indexedTarget_toNat (nnn : BitVec 12) (b : Byte) : (indexedTarget nnn b).toNat = nnn.toNat + b.toNat := by
  have := nnn.isLt
  have := b.isLt
  simp only [indexedTarget, BitVec.toNat_add, zextAddr_toNat, BitVec.toNat_setWidth]
  omega

theorem wrapIndex_toNat (i : Word) (b : Byte) : (wrapIndex i b).toNat = (i.toNat + b.toNat) % 4096 := by
  simp only [wrapIndex, BitVec.toNat_ofNat]; omega

theorem glyphAddr_toNat (b : Byte) : (glyphAddr b).toNat = 0x050 + 5 * b.toNat := by
  have := b.isLt
  simp only [glyphAddr, BitVec.toNat_ofNat]; omega

@[simp] theorem State.regsUpTo_length (s : State) (x : Reg) : (s.regsUpTo x).length = x.val + 1 := by
  have := x.isLt
  simp [State.regsUpTo]

theorem State.getElem_regsUpTo (s : State) (x : Reg) (k : Nat) (h : k < (s.regsUpTo x).length) :
    (s.regsUpTo x)[k] = s.readV ⟨k, by simp at h; omega⟩ := by
  simp [State.regsUpTo, State.readV]

@[simp] theorem bcdDigits_length (b : Byte) : (bcdDigits b).length = 3 := rfl

/-- R59, R53, R143, R144: everything the shared store can answer. -/
theorem storeAtI_cases (s : State) (bytes : List Byte) (c : SubCause) :
    (4096 < s.i.toNat + bytes.length ∧ storeAtI s bytes c = raise c) ∨
    (s.i.toNat + bytes.length ≤ 4096 ∧ s.i.toNat ≤ 0x09F ∧ 0x050 < s.i.toNat + bytes.length ∧
      storeAtI s bytes c = raise .romWrite) ∨
    (s.i.toNat + bytes.length ≤ 4096 ∧ (0x09F < s.i.toNat ∨ s.i.toNat + bytes.length ≤ 0x050) ∧
      storeAtI s bytes c = .next (s.setMem (s.mem.writeBytes s.i.toNat bytes))) := by
  unfold storeAtI inMemory meetsFont
  by_cases h1 : s.i.toNat + bytes.length ≤ 4096
  · by_cases h2 : s.i.toNat ≤ 0x09F ∧ 0x050 < s.i.toNat + bytes.length
    · exact .inr (.inl ⟨h1, h2.1, h2.2, by simp [h1, h2.1, h2.2]⟩)
    · refine .inr (.inr ⟨h1, by omega, ?_⟩)
      have : (decide (s.i.toNat ≤ 0x09F) && decide (0x050 < s.i.toNat + bytes.length)) = false := by
        simp only [Bool.and_eq_false_iff, decide_eq_false_iff_not]; omega
      simp [h1, this]
  · exact .inl ⟨by omega, by simp [h1]⟩

/-! ## Keys -/

theorem State.keyAt_of_lt (s : State) (b : Byte) (h : b.toNat < 16) : s.keyAt b = some s.keys[b.toNat] := dif_pos h

theorem State.keyAt_of_ge (s : State) (b : Byte) (h : 16 ≤ b.toNat) : s.keyAt b = none := dif_neg (by omega)

/-- R172: the key found is pressed and every lower one is not. -/
theorem State.firstPressed_some (s : State) (k : Fin 16) :
    s.firstPressed = some k ↔ s.keys[k.val] = true ∧ ∀ j : Fin 16, j < k → s.keys[j.val] = false := by
  unfold State.firstPressed
  rw [List.find?_eq_some_iff_getElem]
  constructor
  · rintro ⟨hk, i, hi, he, hlt⟩
    rw [List.getElem_finRange] at he
    refine ⟨hk, fun j hj => ?_⟩
    have hik : i = k.val := by rw [← he]; rfl
    have := hlt j.val (by rw [hik]; exact hj)
    simpa using this
  · rintro ⟨hk, hlt⟩
    refine ⟨hk, k.val, by simp, by ext; simp, fun j hj => ?_⟩
    have := hlt ⟨j, by have := k.isLt; omega⟩ hj
    simp [this]

theorem State.firstPressed_none (s : State) : s.firstPressed = none ↔ ∀ k : Fin 16, s.keys[k.val] = false := by
  simp [State.firstPressed]

/-! ## The framebuffer -/

/-- R34: a toggle changes exactly the cell it names. -/
theorem cellOf_toggleCell (fb : Vector (BitVec 64) 32) (cr q : Nat × Nat) (h : onScreen cr = true) :
    cellOf (toggleCell fb cr) q = (cellOf fb q ^^ decide (q = cr)) := by
  obtain ⟨c, r⟩ := cr
  obtain ⟨qc, qr⟩ := q
  simp only [onScreen, Bool.and_eq_true, decide_eq_true_eq] at h
  have hr : r < 32 := by omega
  simp only [cellOf, toggleCell, hr, dif_pos, Prod.mk.injEq]
  by_cases hq : qr < 32
  · simp only [hq, dif_pos, Vector.getElem_set]
    by_cases hrq : r = qr
    · subst hrq
      have hc : c < 64 := by omega
      simp only [BitVec.getLsbD_xor, BitVec.getLsbD_twoPow, hc, decide_true, Bool.true_and, and_true, if_true]
      congr 1
      by_cases e : c = qc <;> simp [e]
      exact fun e' => e e'.symm
    · have : ¬ (qr = r) := fun e => hrq e.symm
      simp [hrq, this]
  · have : ¬ (qr = r) := by omega
    simp [hq, this]

/-- The loop of R151, whatever its order, over distinct cells of the grid: exactly those cells are toggled. -/
theorem cellOf_toggleCells (crs : List (Nat × Nat)) :
    ∀ (fb : Vector (BitVec 64) 32) (hit : Bool) (q : Nat × Nat), crs.all onScreen = true → crs.Nodup →
      cellOf (toggleCells crs fb hit).1 q = (cellOf fb q ^^ decide (q ∈ crs)) := by
  induction crs with
  | nil => intro fb hit q _ _; simp [toggleCells]
  | cons cr crs ih =>
    intro fb hit q hon hnd
    simp only [List.all_cons, Bool.and_eq_true] at hon
    have hnd' := List.nodup_cons.mp hnd
    rw [toggleCells, ih _ _ _ hon.2 hnd'.2, cellOf_toggleCell _ _ _ hon.1]
    by_cases hq : q = cr
    · subst hq; simp [hnd'.1]
    · simp [hq]

/-- The collision of R151: one of the toggled cells was set. -/
theorem toggleCells_hit (crs : List (Nat × Nat)) :
    ∀ (fb : Vector (BitVec 64) 32) (hit : Bool), crs.all onScreen = true → crs.Nodup →
      (toggleCells crs fb hit).2 = (hit || crs.any (cellOf fb)) := by
  induction crs with
  | nil => intro fb hit _ _; simp [toggleCells]
  | cons cr crs ih =>
    intro fb hit hon hnd
    simp only [List.all_cons, Bool.and_eq_true] at hon
    have hnd' := List.nodup_cons.mp hnd
    rw [toggleCells, ih _ _ hon.2 hnd'.2, List.any_cons, Bool.or_assoc]
    congr 2
    rw [Bool.eq_iff_iff, List.any_eq_true, List.any_eq_true]
    refine exists_congr fun q => and_congr_right fun hq => ?_
    rw [cellOf_toggleCell _ _ _ hon.1]
    have : q ≠ cr := fun e => hnd'.1 (e ▸ hq)
    simp [this]

/-- Two framebuffers with the same cells are the same. -/
theorem framebuffer_ext (f g : Vector (BitVec 64) 32) (h : ∀ q, onScreen q = true → cellOf f q = cellOf g q) : f = g := by
  ext r hr c hc
  have := h (c, r) (by simp [onScreen]; omega)
  simpa [cellOf, hr, BitVec.getLsbD_eq_getElem hc] using this

/-- R151: the set bits of a sprite. -/
theorem mem_spriteBits (rows : List Byte) (r c : Nat) :
    (r, c) ∈ spriteBits rows ↔ r < rows.length ∧ c < 8 ∧ (rows.getD r 0).getLsbD (7 - c) = true := by
  simp [spriteBits, rowColumns]

/-- R151: the cells of a sprite at an origin. -/
theorem mem_spriteCells (x0 y0 : Nat) (rows : List Byte) (q : Nat × Nat) :
    q ∈ spriteCells x0 y0 rows ↔
      ∃ r c, r < rows.length ∧ c < 8 ∧ (rows.getD r 0).getLsbD (7 - c) = true ∧ q = (x0 + c, y0 + r) := by
  simp only [spriteCells, List.mem_map, Prod.exists, mem_spriteBits]
  constructor
  · rintro ⟨r, c, ⟨h1, h2, h3⟩, rfl⟩; exact ⟨r, c, h1, h2, h3, rfl⟩
  · rintro ⟨r, c, h1, h2, h3, rfl⟩; exact ⟨r, c, ⟨h1, h2, h3⟩, rfl⟩

/-- R153(c): distinct set bits give distinct cells. -/
theorem spriteCells_nodup (x0 y0 : Nat) (rows : List Byte) : (spriteCells x0 y0 rows).Nodup := by
  unfold spriteCells spriteBits
  refine List.Nodup.map ?_ ?_
  · rintro ⟨r, c⟩ ⟨r', c'⟩ h
    simp only [Prod.mk.injEq] at h ⊢
    omega
  · refine List.nodup_flatMap.mpr ⟨fun r _ => ?_, ?_⟩
    · refine List.Nodup.map (fun c c' h => (Prod.mk.inj h).2) ?_
      exact List.Nodup.filter _ List.nodup_range
    · refine List.Pairwise.imp ?_ (List.nodup_range (n := rows.length))
      intro r r' hne q hq hq'
      simp only [List.mem_map] at hq hq'
      obtain ⟨c, -, rfl⟩ := hq
      obtain ⟨c', -, e⟩ := hq'
      exact hne (Prod.mk.inj e).1.symm

/-! ## The cycle -/

/-- R58: when a fetch succeeds, and the word it reads (R56). -/
theorem State.fetch_some (s : State) (w : Word) :
    s.fetch = some w ↔ s.pc.toNat ≤ 0x0FFE ∧ w = wordOfBytes (s.mem.read s.pc.toNat) (s.mem.read (s.pc.toNat + 1)) := by
  unfold State.fetch
  split <;> simp_all [eq_comm]

theorem State.fetch_none (s : State) : s.fetch = none ↔ 0x0FFE < s.pc.toNat := by
  unfold State.fetch
  split <;> simp_all

/-- Everything a completed cycle can have been (R100). -/
theorem step_next {s t : State} (h : step s = .next t) :
    ∃ w i u, s.fetch = some w ∧ decode w = some i ∧ exec i s.advance = .next u ∧ t = u.tick := by
  unfold step at h
  split at h
  · simp [raise] at h
  · rename_i w hw
    split at h
    · simp at h
    · rename_i i hi
      cases he : exec i s.advance <;> rw [he] at h <;> simp [finishCycle] at h
      rename_i u
      exact ⟨w, i, u, hw, hi, he, h.symm⟩

/-- R100: the cycle of a decoded instruction. -/
theorem step_of_decode {s : State} {w : Word} {i : Instr} (hw : s.fetch = some w) (hi : decode w = some i) :
    step s = finishCycle (exec i s.advance) := by
  simp [step, hw, hi]

end Sys2Proof.Machine
end

