-- ==== Sys2Proof/Laws/Exec.lean ====
section
/-! SUPPORT. Everything an instruction can do when it completes, said once: `exec i s = .next t` exactly when
`Effect i s t`. Proofs over all instructions take cases on `Effect` instead of unfolding the meanings. -/

namespace Sys2Proof.Machine

/-- The state after a push, where there is room. -/
abbrev State.pushed (s : State) (a : Word) (h : s.sp.val < 16) : State :=
  { s with stack := s.stack.set s.sp.val a, sp := ⟨s.sp.val + 1, by omega⟩ }

/-- The state after a pop into pc, where there is an entry. -/
abbrev State.popped (s : State) (h : 0 < s.sp.val) : State :=
  { s with sp := ⟨s.sp.val - 1, by omega⟩, pc := s.stack[s.sp.val - 1] }

@[simp] theorem State.readV_pushed (s : State) (a : Word) (h : s.sp.val < 16) (q : Reg) :
    (s.pushed a h).readV q = s.readV q := rfl
@[simp] theorem State.readV_popped (s : State) (h : 0 < s.sp.val) (q : Reg) : (s.popped h).readV q = s.readV q := rfl

/-- The state a completed instruction leaves, and when it completes. -/
inductive Effect (s : State) : Instr → State → Prop where
  | cls : Effect s .cls (s.setFb (Vector.replicate 32 0))
  | ret (h : 0 < s.sp.val) : Effect s .ret (s.popped h)
  | jp (nnn) : Effect s (.jp nnn) (s.setPc (zextAddr nnn))
  | call (nnn) (h : s.sp.val < 16) : Effect s (.call nnn) ((s.pushed s.pc h).setPc (zextAddr nnn))
  | seImm (x nn) : Effect s (.seImm x nn) (s.skipIf (s.readV x == nn))
  | sneImm (x nn) : Effect s (.sneImm x nn) (s.skipIf (s.readV x != nn))
  | seReg (x y) : Effect s (.seReg x y) (s.skipIf (s.readV x == s.readV y))
  | ldImm (x nn) : Effect s (.ldImm x nn) (s.writeV x nn)
  | addImm (x nn) : Effect s (.addImm x nn) (s.writeV x (s.readV x + nn))
  | ldReg (x y) : Effect s (.ldReg x y) (s.writeV x (s.readV y))
  | orReg (x y) : Effect s (.orReg x y) (s.writeV x (s.readV x ||| s.readV y))
  | andReg (x y) : Effect s (.andReg x y) (s.writeV x (s.readV x &&& s.readV y))
  | xorReg (x y) : Effect s (.xorReg x y) (s.writeV x (s.readV x ^^^ s.readV y))
  | addReg (x y) : Effect s (.addReg x y)
      ((s.writeV x (s.readV x + s.readV y)).writeFlag (carryFlag (s.readV x) (s.readV y)))
  | sub (x y) : Effect s (.sub x y)
      ((s.writeV x (s.readV x - s.readV y)).writeFlag (noBorrowFlag (s.readV x) (s.readV y)))
  | shr (x y) : Effect s (.shr x y) ((s.writeV x (s.readV x >>> 1)).writeFlag (lowBitFlag (s.readV x)))
  | subn (x y) : Effect s (.subn x y)
      ((s.writeV x (s.readV y - s.readV x)).writeFlag (noBorrowFlag (s.readV y) (s.readV x)))
  | shl (x y) : Effect s (.shl x y) ((s.writeV x (s.readV x <<< 1)).writeFlag (highBitFlag (s.readV x)))
  | sneReg (x y) : Effect s (.sneReg x y) (s.skipIf (s.readV x != s.readV y))
  | ldI (nnn) : Effect s (.ldI nnn) (s.setI (zextAddr nnn))
  | jpV0 (nnn) : Effect s (.jpV0 nnn) (s.setPc (indexedTarget nnn (s.readV 0)))
  | rnd (x nn) : Effect s (.rnd x nn) (s.draw.2.writeV x (s.draw.1 &&& nn))
  | drw (x y n) (cells : List (Nat × Nat)) (hm : s.i.toNat + n.toNat ≤ 4096)
      (hc : cells = spriteCells (s.readV x).toNat (s.readV y).toNat (s.mem.readBytes s.i.toNat n.toNat))
      (hon : cells.all onScreen = true) : Effect s (.drw x y n)
      ((s.setFb (toggleCells cells s.fb false).1).writeFlag (toggleCells cells s.fb false).2)
  | skp (x) (h : (s.readV x).toNat < 16) : Effect s (.skp x) (s.skipIf s.keys[(s.readV x).toNat])
  | sknp (x) (h : (s.readV x).toNat < 16) : Effect s (.sknp x) (s.skipIf !s.keys[(s.readV x).toNat])
  | ldVxDt (x) : Effect s (.ldVxDt x) (s.writeV x s.dt)
  | keyFound (x k) (h : s.firstPressed = some k) : Effect s (.ldVxK x) (s.writeV x (BitVec.ofNat 8 k.val))
  | keyAwaited (x) (h : s.firstPressed = none) : Effect s (.ldVxK x) (s.setPc (s.pc - 2))
  | ldDtVx (x) : Effect s (.ldDtVx x) (s.setDt (s.readV x))
  | ldStVx (x) : Effect s (.ldStVx x) (s.setSt (s.readV x))
  | addI (x) : Effect s (.addI x) (s.setI (wrapIndex s.i (s.readV x)))
  | ldF (x) : Effect s (.ldF x) (s.setI (glyphAddr (s.readV x)))
  | ldB (x) (hm : s.i.toNat + 3 ≤ 4096) (hf : 0x09F < s.i.toNat ∨ s.i.toNat + 3 ≤ 0x050) :
      Effect s (.ldB x) (s.setMem (s.mem.writeBytes s.i.toNat (bcdDigits (s.readV x))))
  | stRegs (x) (hm : s.i.toNat + (x.val + 1) ≤ 4096) (hf : 0x09F < s.i.toNat ∨ s.i.toNat + (x.val + 1) ≤ 0x050) :
      Effect s (.stRegs x) (s.setMem (s.mem.writeBytes s.i.toNat (s.regsUpTo x)))
  | ldRegs (x) (hm : s.i.toNat + (x.val + 1) ≤ 4096) : Effect s (.ldRegs x) (s.loadRegs x s.i.toNat)

/-! ## The shared operations that can fault, when they complete -/

theorem State.popPc_next {s t : State} (h : s.popPc = .next t) : ∃ hs, t = s.popped hs := by
  by_cases hs : 0 < s.sp.val
  · rw [s.popPc_of_pos hs] at h; injection h with h; exact ⟨hs, h.symm⟩
  · rw [s.popPc_empty (by omega)] at h; simp [raise] at h

theorem execCall_next {s t : State} {nnn : BitVec 12} (h : execCall nnn s = .next t) :
    ∃ hs, t = (s.pushed s.pc hs).setPc (zextAddr nnn) := by
  by_cases hs : s.sp.val < 16
  · simp only [execCall, s.push_of_lt _ hs] at h; injection h with h; exact ⟨hs, h.symm⟩
  · simp [execCall, s.push_full _ (by omega : s.sp.val = 16), raise] at h

theorem storeAtI_next {s t : State} {bytes : List Byte} {c : SubCause} (h : storeAtI s bytes c = .next t) :
    s.i.toNat + bytes.length ≤ 4096 ∧ (0x09F < s.i.toNat ∨ s.i.toNat + bytes.length ≤ 0x050) ∧
      t = s.setMem (s.mem.writeBytes s.i.toNat bytes) := by
  rcases storeAtI_cases s bytes c with ⟨-, h'⟩ | ⟨-, -, -, h'⟩ | ⟨hm, hf, h'⟩ <;> rw [h'] at h
  · simp [raise] at h
  · simp [raise] at h
  · injection h with h; exact ⟨hm, hf, h.symm⟩

theorem State.keyAt_cases (s : State) (b : Byte) :
    (∃ h : b.toNat < 16, s.keyAt b = some s.keys[b.toNat]) ∨ (16 ≤ b.toNat ∧ s.keyAt b = none) := by
  by_cases h : b.toNat < 16
  · exact .inl ⟨h, s.keyAt_of_lt b h⟩
  · exact .inr ⟨by omega, s.keyAt_of_ge b (by omega)⟩

/-! ## The inversion of `exec` -/

/-- Everything a completed instruction can have done. -/
theorem effect_of_exec {i : Instr} {s t : State} (h : exec i s = .next t) : Effect s i t := by
  cases i with
  | cls => injection h with h; subst h; exact .cls
  | ret => obtain ⟨hs, rfl⟩ := State.popPc_next h; exact .ret hs
  | jp nnn => injection h with h; subst h; exact .jp nnn
  | call nnn => obtain ⟨hs, rfl⟩ := execCall_next h; exact .call nnn hs
  | seImm x nn => injection h with h; subst h; exact .seImm x nn
  | sneImm x nn => injection h with h; subst h; exact .sneImm x nn
  | seReg x y => injection h with h; subst h; exact .seReg x y
  | ldImm x nn => injection h with h; subst h; exact .ldImm x nn
  | addImm x nn => injection h with h; subst h; exact .addImm x nn
  | ldReg x y => injection h with h; subst h; exact .ldReg x y
  | orReg x y => injection h with h; subst h; exact .orReg x y
  | andReg x y => injection h with h; subst h; exact .andReg x y
  | xorReg x y => injection h with h; subst h; exact .xorReg x y
  | addReg x y => injection h with h; subst h; exact .addReg x y
  | sub x y => injection h with h; subst h; exact .sub x y
  | shr x y => injection h with h; subst h; exact .shr x y
  | subn x y => injection h with h; subst h; exact .subn x y
  | shl x y => injection h with h; subst h; exact .shl x y
  | sneReg x y => injection h with h; subst h; exact .sneReg x y
  | ldI nnn => injection h with h; subst h; exact .ldI nnn
  | jpV0 nnn => injection h with h; subst h; exact .jpV0 nnn
  | rnd x nn => injection h with h; subst h; exact .rnd x nn
  | drw x y n =>
    simp only [exec, execDrw, inMemory, decide_eq_true_eq] at h
    split at h
    · rename_i hm
      split at h
      · rename_i hon; injection h with h; subst h; exact .drw x y n _ hm rfl hon
      · simp [raise] at h
    · simp [raise] at h
  | skp x =>
    rcases s.keyAt_cases (s.readV x) with ⟨hs, hk⟩ | ⟨-, hk⟩ <;> simp only [exec, execSkp, hk] at h
    · injection h with h; subst h; exact .skp x hs
    · simp [raise] at h
  | sknp x =>
    rcases s.keyAt_cases (s.readV x) with ⟨hs, hk⟩ | ⟨-, hk⟩ <;> simp only [exec, execSknp, hk] at h
    · injection h with h; subst h; exact .sknp x hs
    · simp [raise] at h
  | ldVxDt x => injection h with h; subst h; exact .ldVxDt x
  | ldVxK x =>
    cases hk : s.firstPressed <;> simp only [exec, execLdVxK, hk] at h <;> injection h with h <;> subst h
    · exact .keyAwaited x hk
    · exact .keyFound x _ hk
  | ldDtVx x => injection h with h; subst h; exact .ldDtVx x
  | ldStVx x => injection h with h; subst h; exact .ldStVx x
  | addI x => injection h with h; subst h; exact .addI x
  | ldF x => injection h with h; subst h; exact .ldF x
  | ldB x => obtain ⟨hm, hf, rfl⟩ := storeAtI_next h; exact .ldB x hm hf
  | stRegs x =>
    obtain ⟨hm, hf, rfl⟩ := storeAtI_next h
    rw [s.regsUpTo_length] at hm hf
    exact .stRegs x hm hf
  | ldRegs x =>
    simp only [exec, execLdRegs, inMemory, decide_eq_true_eq] at h
    split at h
    · rename_i hm; injection h with h; subst h; exact .ldRegs x hm
    · simp [raise] at h

/-- And each of these is what the instruction does. -/
theorem exec_of_effect {i : Instr} {s t : State} (h : Effect s i t) : exec i s = .next t := by
  cases h with
  | ret h => exact s.popPc_of_pos h
  | call nnn h => simp only [exec, execCall, s.push_of_lt _ h]
  | drw x y n cells hm hc hon =>
    subst hc
    simp only [exec, execDrw, inMemory, hm, decide_true, if_true]
    rw [if_pos hon]
  | skp x h => simp only [exec, execSkp, s.keyAt_of_lt _ h]
  | sknp x h => simp only [exec, execSknp, s.keyAt_of_lt _ h]
  | keyFound x k h => simp only [exec, execLdVxK, h]
  | keyAwaited x h => simp only [exec, execLdVxK, h]
  | ldB x hm hf =>
    rcases storeAtI_cases s (bcdDigits (s.readV x)) .bcdStore with ⟨h, -⟩ | ⟨-, h, h', -⟩ | ⟨-, -, h⟩
    · simp only [bcdDigits_length] at h; omega
    · simp only [bcdDigits_length] at h'; omega
    · exact h
  | stRegs x hm hf =>
    rcases storeAtI_cases s (s.regsUpTo x) .blockStore with ⟨h, -⟩ | ⟨-, h, h', -⟩ | ⟨-, -, h⟩
    · simp only [State.regsUpTo_length] at h; omega
    · simp only [State.regsUpTo_length] at h'; omega
    · exact h
  | ldRegs x hm => simp only [exec, execLdRegs, inMemory, hm, decide_true, if_true]
  | _ => rfl

/-- When an instruction completes, and with what state. -/
theorem exec_next_iff {i : Instr} {s t : State} : exec i s = .next t ↔ Effect s i t :=
  ⟨effect_of_exec, exec_of_effect⟩

/-- No meaning refuses. -/
theorem exec_not_refused (i : Instr) (s : State) (r : Refusal) : exec i s ≠ .refused r := by
  intro h
  cases i with
  | ret => simp only [exec, execRet, State.popPc] at h; split at h <;> simp [raise] at h
  | call nnn => simp only [exec, execCall, State.push] at h; split at h <;> (split at * <;> simp_all [raise])
  | drw x y n =>
    simp only [exec, execDrw] at h
    split at h
    · split at h <;> simp [raise] at h
    · simp [raise] at h
  | skp x => simp only [exec, execSkp] at h; split at h <;> simp [raise] at h
  | sknp x => simp only [exec, execSknp] at h; split at h <;> simp [raise] at h
  | ldVxK x => simp only [exec, execLdVxK] at h; split at h <;> simp at h
  | ldB x => rcases storeAtI_cases s (bcdDigits (s.readV x)) .bcdStore with ⟨-, h'⟩ | ⟨-, -, -, h'⟩ | ⟨-, -, h'⟩ <;>
      simp [exec, execLdB, h', raise] at h
  | stRegs x => rcases storeAtI_cases s (s.regsUpTo x) .blockStore with ⟨-, h'⟩ | ⟨-, -, -, h'⟩ | ⟨-, -, h'⟩ <;>
      simp [exec, execStRegs, h', raise] at h
  | ldRegs x => simp only [exec, execLdRegs] at h; split at h <;> simp [raise] at h
  | _ => exact nomatch h

end Sys2Proof.Machine
end

