-- ==== Sys2Proof/Laws/PerInstr.lean ====
section
/-! SUPPORT. The family RowOfEncoding: every instruction's word is an instance of that instruction's own row of the
opcode table (spec/30_encoding.md R83, R84). One lemma per constructor. -/

namespace Sys2Proof.Laws.RowOfEncoding

/-- The word of the instruction matches its row of R84: `w & mask = match`. -/
def Statement (i : Instr) : Prop := encode i &&& i.row.mask = i.row.pattern

theorem cls : Statement (.cls) := rfl
theorem ret : Statement (.ret) := rfl
theorem jp (nnn : BitVec 12) : Statement (.jp nnn) := (encNNN_and_F000 _ _).trans rfl
theorem call (nnn : BitVec 12) : Statement (.call nnn) := (encNNN_and_F000 _ _).trans rfl
theorem seImm (x : Reg) (nn : Byte) : Statement (.seImm x nn) := (encXNN_and_F000 _ _ _).trans rfl
theorem sneImm (x : Reg) (nn : Byte) : Statement (.sneImm x nn) := (encXNN_and_F000 _ _ _).trans rfl
theorem seReg (x : Reg) (y : Reg) : Statement (.seReg x y) := (encXYN_and_F00F _ _ _ _).trans rfl
theorem ldImm (x : Reg) (nn : Byte) : Statement (.ldImm x nn) := (encXNN_and_F000 _ _ _).trans rfl
theorem addImm (x : Reg) (nn : Byte) : Statement (.addImm x nn) := (encXNN_and_F000 _ _ _).trans rfl
theorem ldReg (x : Reg) (y : Reg) : Statement (.ldReg x y) := (encXYN_and_F00F _ _ _ _).trans rfl
theorem orReg (x : Reg) (y : Reg) : Statement (.orReg x y) := (encXYN_and_F00F _ _ _ _).trans rfl
theorem andReg (x : Reg) (y : Reg) : Statement (.andReg x y) := (encXYN_and_F00F _ _ _ _).trans rfl
theorem xorReg (x : Reg) (y : Reg) : Statement (.xorReg x y) := (encXYN_and_F00F _ _ _ _).trans rfl
theorem addReg (x : Reg) (y : Reg) : Statement (.addReg x y) := (encXYN_and_F00F _ _ _ _).trans rfl
theorem sub (x : Reg) (y : Reg) : Statement (.sub x y) := (encXYN_and_F00F _ _ _ _).trans rfl
theorem shr (x : Reg) (y : Reg) : Statement (.shr x y) := (encXYN_and_F00F _ _ _ _).trans rfl
theorem subn (x : Reg) (y : Reg) : Statement (.subn x y) := (encXYN_and_F00F _ _ _ _).trans rfl
theorem shl (x : Reg) (y : Reg) : Statement (.shl x y) := (encXYN_and_F00F _ _ _ _).trans rfl
theorem sneReg (x : Reg) (y : Reg) : Statement (.sneReg x y) := (encXYN_and_F00F _ _ _ _).trans rfl
theorem ldI (nnn : BitVec 12) : Statement (.ldI nnn) := (encNNN_and_F000 _ _).trans rfl
theorem jpV0 (nnn : BitVec 12) : Statement (.jpV0 nnn) := (encNNN_and_F000 _ _).trans rfl
theorem rnd (x : Reg) (nn : Byte) : Statement (.rnd x nn) := (encXNN_and_F000 _ _ _).trans rfl
theorem drw (x : Reg) (y : Reg) (n : BitVec 4) : Statement (.drw x y n) := (encXYN_and_F000 _ _ _ _).trans rfl
theorem skp (x : Reg) : Statement (.skp x) := (encXNN_and_F0FF _ _ _).trans rfl
theorem sknp (x : Reg) : Statement (.sknp x) := (encXNN_and_F0FF _ _ _).trans rfl
theorem ldVxDt (x : Reg) : Statement (.ldVxDt x) := (encXNN_and_F0FF _ _ _).trans rfl
theorem ldVxK (x : Reg) : Statement (.ldVxK x) := (encXNN_and_F0FF _ _ _).trans rfl
theorem ldDtVx (x : Reg) : Statement (.ldDtVx x) := (encXNN_and_F0FF _ _ _).trans rfl
theorem ldStVx (x : Reg) : Statement (.ldStVx x) := (encXNN_and_F0FF _ _ _).trans rfl
theorem addI (x : Reg) : Statement (.addI x) := (encXNN_and_F0FF _ _ _).trans rfl
theorem ldF (x : Reg) : Statement (.ldF x) := (encXNN_and_F0FF _ _ _).trans rfl
theorem ldB (x : Reg) : Statement (.ldB x) := (encXNN_and_F0FF _ _ _).trans rfl
theorem stRegs (x : Reg) : Statement (.stRegs x) := (encXNN_and_F0FF _ _ _).trans rfl
theorem ldRegs (x : Reg) : Statement (.ldRegs x) := (encXNN_and_F0FF _ _ _).trans rfl

/-- Every instruction's word is an instance of its row. -/
theorem all (i : Instr) : Statement i := by
  cases i with
  | cls => exact RowOfEncoding.cls
  | ret => exact RowOfEncoding.ret
  | jp nnn => exact RowOfEncoding.jp nnn
  | call nnn => exact RowOfEncoding.call nnn
  | seImm x nn => exact RowOfEncoding.seImm x nn
  | sneImm x nn => exact RowOfEncoding.sneImm x nn
  | seReg x y => exact RowOfEncoding.seReg x y
  | ldImm x nn => exact RowOfEncoding.ldImm x nn
  | addImm x nn => exact RowOfEncoding.addImm x nn
  | ldReg x y => exact RowOfEncoding.ldReg x y
  | orReg x y => exact RowOfEncoding.orReg x y
  | andReg x y => exact RowOfEncoding.andReg x y
  | xorReg x y => exact RowOfEncoding.xorReg x y
  | addReg x y => exact RowOfEncoding.addReg x y
  | sub x y => exact RowOfEncoding.sub x y
  | shr x y => exact RowOfEncoding.shr x y
  | subn x y => exact RowOfEncoding.subn x y
  | shl x y => exact RowOfEncoding.shl x y
  | sneReg x y => exact RowOfEncoding.sneReg x y
  | ldI nnn => exact RowOfEncoding.ldI nnn
  | jpV0 nnn => exact RowOfEncoding.jpV0 nnn
  | rnd x nn => exact RowOfEncoding.rnd x nn
  | drw x y n => exact RowOfEncoding.drw x y n
  | skp x => exact RowOfEncoding.skp x
  | sknp x => exact RowOfEncoding.sknp x
  | ldVxDt x => exact RowOfEncoding.ldVxDt x
  | ldVxK x => exact RowOfEncoding.ldVxK x
  | ldDtVx x => exact RowOfEncoding.ldDtVx x
  | ldStVx x => exact RowOfEncoding.ldStVx x
  | addI x => exact RowOfEncoding.addI x
  | ldF x => exact RowOfEncoding.ldF x
  | ldB x => exact RowOfEncoding.ldB x
  | stRegs x => exact RowOfEncoding.stRegs x
  | ldRegs x => exact RowOfEncoding.ldRegs x

end Sys2Proof.Laws.RowOfEncoding
end

