-- ==== Sys2Proof/Tests/Slice0.lean ====
section
/-! SUPPORT. Tests of the model against the encodings and the vectors of spec/ (each names its source), the smoke tests
of the well-formedness check, and a witness for the hypotheses of every statement that has some. -/

open Sys2Proof Sys2Proof.Machine Sys2Proof.Claims

namespace Sys2Proof.Tests

/-! ## Helpers -/

/-- One cycle of `s` with the word `w` at its pc, seen through `f`; none if the cycle does not complete. -/
def after {α : Type} (s : State) (w : Nat) (f : State → α) : Option α :=
  match step (s.withFetchWord 16 w) with
  | .next t => some (f t)
  | _ => none

/-- The fault of one cycle of `s` with the word `w` at its pc. -/
def faultOf (s : State) (w : Nat) : Option Fault :=
  match step (s.withFetchWord 16 w) with
  | .fault r => some r
  | _ => none

/-- The reset state with two registers set. -/
def withRegs (x : Reg) (a : Byte) (y : Reg) (b : Byte) : State := (State.reset.writeV x a).writeV y b

/-- The reset state with I and one register set. -/
def withI (i : Word) (x : Reg) (a : Byte) : State := (State.reset.setI i).writeV x a

/-- The reset state with I at 0x300 and sprite bytes there. -/
def withSprite (x y : Byte) (rows : List Byte) : State :=
  ((withRegs 0 x 1 y).setI 0x300).setMem (State.reset.mem.writeBytes 0x300 rows)

/-- The set cells of a list of columns of one row. -/
def rowOf (s : State) (row : Nat) : List Nat := (List.range 64).filter fun c => s.cell c row

/-- The reset state with a program at 0x200. -/
def withProgram (bytes : List Byte) : State := State.reset.setMem (State.reset.mem.writeBytes 0x200 bytes)

/-! ## Well-formedness: each check refuses -/

theorem test_wf_refuses_x : (RawOperands.mk 16 0 0 0 0).wf = false := by decide
theorem test_wf_refuses_y : (RawOperands.mk 0 16 0 0 0).wf = false := by decide
theorem test_wf_refuses_n : (RawOperands.mk 0 0 16 0 0).wf = false := by decide
theorem test_wf_refuses_nn : (RawOperands.mk 0 0 0 256 0).wf = false := by decide
theorem test_wf_refuses_nnn : (RawOperands.mk 0 0 0 0 4096).wf = false := by decide
theorem test_wf_accepts_bounds : (RawOperands.mk 15 15 15 255 4095).wf = true := by decide

/-! ## Decoding: a word of every row, written out from R84 bit by bit -/

theorem test_decode_fixed_and_nnn :
    decode 0b0000000011100000 = some .cls ∧ decode 0b0000000011101110 = some .ret ∧
    decode 0b0001001000000100 = some (.jp 0x204) ∧ decode 0b0010001000001100 = some (.call 0x20C) ∧
    decode 0b1010001100000000 = some (.ldI 0x300) ∧ decode 0b1011000100100011 = some (.jpV0 0x123) := by decide

theorem test_decode_xnn :
    decode 0b0011001100101010 = some (.seImm 3 0x2A) ∧ decode 0b0100001100101010 = some (.sneImm 3 0x2A) ∧
    decode 0b0110101000000101 = some (.ldImm 10 0x05) ∧ decode 0b0111101000000011 = some (.addImm 10 0x03) ∧
    decode 0b1100001100001111 = some (.rnd 3 0x0F) := by decide

theorem test_decode_xyn :
    decode 0b0101000100100000 = some (.seReg 1 2) ∧ decode 0b1000000100100000 = some (.ldReg 1 2) ∧
    decode 0b1000000100100001 = some (.orReg 1 2) ∧ decode 0b1000000100100010 = some (.andReg 1 2) ∧
    decode 0b1000000100100011 = some (.xorReg 1 2) ∧ decode 0b1000000100100100 = some (.addReg 1 2) ∧
    decode 0b1000000100100101 = some (.sub 1 2) ∧ decode 0b1000000100100110 = some (.shr 1 2) ∧
    decode 0b1000000100100111 = some (.subn 1 2) ∧ decode 0b1000000100101110 = some (.shl 1 2) ∧
    decode 0b1001000100100000 = some (.sneReg 1 2) ∧ decode 0b1101000100100101 = some (.drw 1 2 5) := by decide

theorem test_decode_xkk :
    decode 0b1110010110011110 = some (.skp 5) ∧ decode 0b1110010110100001 = some (.sknp 5) ∧
    decode 0b1111000100000111 = some (.ldVxDt 1) ∧ decode 0b1111010100001010 = some (.ldVxK 5) ∧
    decode 0b1111000000010101 = some (.ldDtVx 0) ∧ decode 0b1111001000011000 = some (.ldStVx 2) ∧
    decode 0b1111001000011110 = some (.addI 2) ∧ decode 0b1111010000101001 = some (.ldF 4) ∧
    decode 0b1111000000110011 = some (.ldB 0) ∧ decode 0b1111000101010101 = some (.stRegs 1) ∧
    decode 0b1111001001100101 = some (.ldRegs 2) := by decide

/-- Vectors C7: unrecognized words. -/
theorem test_unrecognized :
    [0x0000, 0x00E1, 0x0123, 0x01E0, 0x5121, 0x8128, 0x812F, 0x9001, 0xE0A2, 0xE09F, 0xF000, 0xF166, 0xFFFF].all
      (fun w => (decodeTableWord 16 w).isNone) = true := by decide

/-- R84: 34 rows, pairwise disjoint. -/
theorem test_rows_disjoint : opcodeTable.length = 34 ∧
    opcodeTable.Pairwise (fun r s => r.pattern &&& s.mask ≠ s.pattern &&& r.mask) := by decide

/-! ## The cycle -/

/-- Vectors C1, C2: big-endian fetch, odd pc. -/
theorem test_fetch_order : after State.reset 0x6A05 (fun t => (t.readV 10, t.pc)) = some (0x05, 0x0202) ∧
    after (State.reset.setPc 0x201) 0x6107 (fun t => (t.readV 1, t.pc)) = some (0x07, 0x0203) := by decide

/-- Vectors C3, C5, C6: the top of memory; no program. -/
theorem test_fetch_bound : after (State.reset.setPc 0xFFE) 0x6005 (·.pc) = some 0x1000 ∧
    faultOf (State.reset.setPc 0xFFF) 0x6005 = some (.outOfBounds .fetch) ∧
    faultOf State.reset 0x0000 = some (.unknownInstruction 0x0000) := by decide

/-- Vector C8: the tick. -/
theorem test_tick : after ((State.reset.setDt 5).setSt 1) 0x6005 (fun t => (t.readV 0, t.dt, t.st)) = some (5, 4, 0) := by
  decide

/-! ## Jumps, calls, returns, skips -/

/-- Vectors J1, J3. -/
theorem test_jp : after (State.reset.setPc 0x20A) 0x1204 (·.pc) = some 0x0204 ∧
    after State.reset 0x1FFF (·.pc) = some 0x0FFF := by decide

/-- Vector J4. -/
theorem test_call : after (State.reset.setPc 0x204) 0x220C (fun t => (t.stack[0], t.sp, t.pc)) = some (0x206, 1, 0x20C) := by
  decide

/-- Vectors J6, J8. -/
theorem test_stack_faults : faultOf { State.reset with sp := 16 } 0x2400 = some (.outOfBounds .stackOverflow) ∧
    faultOf State.reset 0x00EE = some (.outOfBounds .stackUnderflow) := by decide

/-- Vector J7: the entry stays. -/
theorem test_ret : after { State.reset with sp := 1, stack := State.reset.stack.set 0 0x206 } 0x00EE
    (fun t => (t.sp, t.pc, t.stack[0])) = some (0, 0x206, 0x206) := by decide

/-- Vectors J9 to J12. -/
theorem test_skip_imm : after (withRegs 3 0x2A 0 0) 0x332A (·.pc) = some 0x204 ∧
    after (withRegs 3 0x2B 0 0) 0x332A (·.pc) = some 0x202 ∧ after (withRegs 3 0x2A 0 0) 0x432A (·.pc) = some 0x202 ∧
    after State.reset 0x432A (·.pc) = some 0x204 := by decide

/-- Vectors J13, J14, J16, J17. -/
theorem test_skip_reg : after (withRegs 1 7 2 7) 0x5120 (·.pc) = some 0x204 ∧
    after (withRegs 1 7 2 8) 0x5120 (·.pc) = some 0x202 ∧ after (withRegs 1 7 2 8) 0x9120 (·.pc) = some 0x204 ∧
    after (withRegs 1 7 2 7) 0x9120 (·.pc) = some 0x202 := by decide

/-- Vectors J21, J22. -/
theorem test_jpV0 : after (withRegs 0 0xFF 1 0) 0xBFFF (·.pc) = some 0x10FE ∧
    after (withRegs 0 0x01 1 0x50) 0xB123 (·.pc) = some 0x124 := by decide

/-! ## Arithmetic -/

/-- Vectors A3, A5, A6. -/
theorem test_loads_and_addImm : after (withRegs 10 0xFF 15 0) 0x7A01 (fun t => (t.readV 10, t.readV VF)) = some (0, 0) ∧
    after (withRegs 15 0xFE 0 0) 0x7F03 (·.readV VF) = some 1 ∧ after (withRegs 2 0x34 0 0) 0x8120 (·.readV 1) = some 0x34 := by
  decide

/-- Vectors A7, A8, A9. -/
theorem test_logic : after ((withRegs 1 0xF0 2 0x0F).writeV VF 1) 0x8121 (fun t => (t.readV 1, t.readV VF)) = some (0xFF, 1) ∧
    after (withRegs 1 0xCC 2 0xAA) 0x8122 (·.readV 1) = some 0x88 ∧
    after (withRegs 1 0xCC 2 0xAA) 0x8123 (·.readV 1) = some 0x66 := by decide

/-- Vectors A11, A15, A17. -/
theorem test_addReg : after (withRegs 1 0xFF 2 0x01) 0x8124 (fun t => (t.readV 1, t.readV VF)) = some (0, 1) ∧
    after (withRegs 15 0xFF 1 0x02) 0x8F14 (·.readV VF) = some 1 ∧
    after (withRegs 1 0x01 15 0xFF) 0x81F4 (fun t => (t.readV 1, t.readV VF)) = some (0, 1) := by decide

/-- Vectors A19, A20, A24. -/
theorem test_sub : after (withRegs 1 3 2 5) 0x8125 (fun t => (t.readV 1, t.readV VF)) = some (0xFE, 0) ∧
    after (withRegs 1 7 2 7) 0x8125 (fun t => (t.readV 1, t.readV VF)) = some (0, 1) ∧
    after (withRegs 15 5 1 3) 0x8F15 (·.readV VF) = some 1 := by decide

/-- Vectors A25, A26. -/
theorem test_subn : after (withRegs 1 3 2 5) 0x8127 (fun t => (t.readV 1, t.readV VF)) = some (2, 1) ∧
    after (withRegs 1 5 2 3) 0x8127 (fun t => (t.readV 1, t.readV VF)) = some (0xFE, 0) := by decide

/-- Vectors A28, A33, A34, A39. -/
theorem test_shifts : after (withRegs 1 5 2 0xEE) 0x8126 (fun t => (t.readV 1, t.readV VF, t.readV 2)) = some (2, 1, 0xEE) ∧
    after (withRegs 15 2 0 0) 0x8F06 (·.readV VF) = some 0 ∧
    after (withRegs 1 0x81 0 0) 0x812E (fun t => (t.readV 1, t.readV VF)) = some (2, 1) ∧
    after (withRegs 15 0x40 0 0) 0x8F0E (·.readV VF) = some 0 := by decide

/-- Vector A42: the mask 00 gives 00 whatever is drawn; the next draw is another. -/
theorem test_rnd : after (withRegs 3 0x55 0 0) 0xC300 (·.draws) = some 1 := by decide

theorem test_rnd_mask_zero (s : State) : ∃ t, exec (.rnd 3 0x00) s = .next t ∧ t.readV 3 = 0 :=
  ⟨_, rfl, by simp⟩

/-! ## Index register and memory -/

/-- Vectors M3, M4, M5, M8. -/
theorem test_index : after (withI 0xFFF 2 1) 0xF21E (fun t => (t.i, t.readV VF)) = some (0, 0) ∧
    after (withI 0xFFF 2 0xFF) 0xF21E (·.i) = some 0x0FE ∧ after (withI 0 4 0x0A) 0xF429 (·.i) = some 0x082 ∧
    after (withI 0 4 0xFF) 0xF429 (·.i) = some 0x54B ∧ after State.reset 0xA300 (·.i) = some 0x300 := by decide

/-- Vectors M9, M13, M14, M16. -/
theorem test_ldB : after (withI 0x300 0 0xFE) 0xF033 (·.mem.readBytes 0x300 3) = some [2, 5, 4] ∧
    after (withI 0xFFD 0 0x7B) 0xF033 (·.mem.readBytes 0xFFD 3) = some [1, 2, 3] ∧
    faultOf (withI 0xFFE 0 0) 0xF033 = some (.outOfBounds .bcdStore) ∧
    faultOf (withI 0x04E 0 0) 0xF033 = some (.outOfBounds .romWrite) := by decide

/-- Vectors M19, M21, M23. -/
theorem test_stRegs : after ((withRegs 0 0x11 1 0x22).setI 0x400) 0xF155 (fun t => (t.mem.readBytes 0x400 3, t.i)) =
      some ([0x11, 0x22, 0], 0x400) ∧
    faultOf (withI 0xFFF 0 0) 0xF155 = some (.outOfBounds .blockStore) ∧
    faultOf (withI 0x041 0 0) 0xFF55 = some (.outOfBounds .romWrite) := by decide

/-- Vectors M24, M27. -/
theorem test_ldRegs : after ((withSprite 0 0 [2, 5, 4]).writeV 3 9) 0xF265
      (fun t => (t.readV 0, t.readV 1, t.readV 2, t.readV 3, t.i)) = some (2, 5, 4, 9, 0x300) ∧
    faultOf (withI 0xFF1 0 0) 0xFF65 = some (.outOfBounds .blockLoad) := by decide

/-- Vector M25, which rests on the default FONT of R54 (log entry 1). -/
theorem test_ldRegs_default_font : after (withI 0x050 0 0) 0xF465
    (fun t => [t.readV 0, t.readV 1, t.readV 2, t.readV 3, t.readV 4]) = some [0xF0, 0x90, 0x90, 0x90, 0xF0] := by decide

/-! ## Clear and draw -/

/-- Vectors G2, G5. -/
theorem test_drw_sets : after (withSprite 0 0 [0xF0]) 0xD011 (fun t => (rowOf t 0, t.readV VF)) = some ([0, 1, 2, 3], 0) ∧
    after (withSprite 2 1 [0xF0, 0x81]) 0xD012 (fun t => (rowOf t 1, rowOf t 2, t.fbAt 137)) =
      some ([2, 3, 4, 5], [2, 9], true) := by decide

/-- Vector G4: collision is set-to-clear. -/
theorem test_drw_collides : after ((withSprite 0 0 [0xC0]).setFb (toggleCell (Vector.replicate 32 0) (0, 0))) 0xD011
    (fun t => (rowOf t 0, t.readV VF)) = some ([1], 1) := by decide

/-- Vectors G6 to G12, G14: N = 0, the screen edge, the end of memory. -/
theorem test_drw_edges : after ((withSprite 0xFF 0xFF [0xF0]).writeV VF 1) 0xD010 (·.readV VF) = some 0 ∧
    after (withSprite 63 31 [0x80]) 0xD011 (·.fbAt 2047) = some true ∧
    faultOf (withSprite 63 0 [0xC0]) 0xD011 = some (.outOfBounds .drawFramebuffer) ∧
    faultOf (withSprite 0 31 [0x80, 0x80]) 0xD012 = some (.outOfBounds .drawFramebuffer) ∧
    after (withSprite 0 31 [0x80, 0x00]) 0xD012 (·.fbAt 1984) = some true ∧
    after (withSprite 64 0 [0x00]) 0xD011 (·.readV VF) = some 0 ∧
    faultOf (withSprite 64 0 [0x01]) 0xD011 = some (.outOfBounds .drawFramebuffer) ∧
    faultOf (withI 0xFFF 0 0) 0xD012 = some (.outOfBounds .drawMemory) := by decide

/-- Vector G15: the column comes from the old VF. -/
theorem test_drw_old_flag : after ((withSprite 0 1 [0x80]).writeV VF 2) 0xDF11 (fun t => (rowOf t 1, t.readV VF)) =
    some ([2], 0) := by decide

/-- Vector G1. -/
theorem test_cls : after (State.reset.setFb (toggleCell (Vector.replicate 32 0) (5, 0))) 0x00E0 (fun t => rowOf t 0) = some [] := by
  decide

/-! ## Timers and keys -/

/-- Vectors T1, T2, T4, T6. -/
theorem test_timers : after (withRegs 0 3 1 0) 0xF015 (·.dt) = some 2 ∧ after State.reset 0xF015 (·.dt) = some 0 ∧
    after (State.reset.setDt 5) 0xF107 (fun t => (t.readV 1, t.dt)) = some (5, 4) ∧
    after (withRegs 2 0x10 0 0) 0xF218 (·.st) = some 0x0F := by decide

/-- Vectors K1 to K5. -/
theorem test_skip_key : after ((withRegs 5 3 0 0).setKey 3 true) 0xE59E (·.pc) = some 0x204 ∧
    after (withRegs 5 3 0 0) 0xE59E (·.pc) = some 0x202 ∧ after (withRegs 5 3 0 0) 0xE5A1 (·.pc) = some 0x204 ∧
    after ((withRegs 5 3 0 0).setKey 3 true) 0xE5A1 (·.pc) = some 0x202 ∧
    faultOf (withRegs 5 0x10 0 0) 0xE59E = some (.outOfBounds .keypad) ∧
    faultOf (withRegs 5 0x10 0 0) 0xE5A1 = some (.outOfBounds .keypad) := by decide

/-- Vectors K6, K7, K9. -/
theorem test_wait_key : after (State.reset.setDt 5) 0xF50A (fun t => (t.pc, t.readV 5, t.dt)) = some (0x200, 0, 4) ∧
    after ((State.reset.setKey 3 true).setKey 7 true) 0xF50A (fun t => (t.pc, t.readV 5)) = some (0x202, 3) ∧
    after (State.reset.setKey 15 true) 0xF50A (·.readV 5) = some 15 := by decide

/-! ## Load -/

/-- Vector L5, on the load of R213. -/
theorem test_load : (match State.reset.load [1, 2, 3, 4] with
    | .next t => match t.load [5, 6] with
      | .next u => u.mem.readBytes 0x200 5
      | _ => []
    | _ => []) = [5, 6, 3, 4, 0] := by decide

/-! ## Witnesses: concrete states and operands that meet the hypotheses of the statements -/

theorem fetches_of {s : State} {w : Word} {i : Instr} (hf : s.fetch = some w) (hi : decode w = some i) : Fetches s i := by
  obtain ⟨hp, rfl⟩ := (s.fetch_some w).1 hf
  exact ⟨hp, _, wordOfBytes_toNat _ _, hi⟩

/-- A run computed: the state after executing exactly these instructions. -/
def runInstrs : State → List Instr → Option State
  | s, [] => some s
  | s, i :: is =>
    match s.fetch with
    | none => none
    | some w =>
      if decode w = some i then
        match step s with
        | .next t => runInstrs t is
        | _ => none
      else none

theorem executes_of_runInstrs : ∀ (is : List Instr) (s t : State), runInstrs s is = some t → Executes s is t
  | [], s, t, h => by injection h with h; subst h; exact .nil s
  | i :: is, s, t, h => by
    unfold runInstrs at h
    split at h
    · simp at h
    · rename_i w hw
      split at h
      · rename_i hi
        split at h
        · rename_i u hu; exact .cons s u t w i is hw hi hu (executes_of_runInstrs is u t h)
        · simp at h
      · simp at h

theorem next_of_isSome {s : State} {w : Nat} (h : (after s w id).isSome = true) : ∃ t, step (s.withFetchWord 16 w) = .next t := by
  unfold after at h
  split at h
  · exact ⟨_, ‹_›⟩
  · simp at h

theorem wit_EncodeOfDecode : decode 0x6A05 = some (.ldImm 10 5) := by decide

theorem wit_DecodeAgreesWithOpcodeTable :
    (⟨"RET", 0xFFFF, 0x00EE⟩ : OpcodeRow) ∈ opcodeTable ∧ (0x00EE : Word) &&& 0xFFFF = 0x00EE := by decide

/-- StepRunsDecodedInstruction: the premises, with a next state in one case and a fault in the other. -/
theorem wit_StepRunsDecodedInstruction :
    (∃ (s : State) (w : Word) (i : Instr) (t : State), s.pc.toNat ≤ 0x0FFE ∧ WordAtPc s w ∧ decode w = some i ∧
      exec i { s with pc := s.pc + 2 } = .next t) ∧
    (∃ (s : State) (w : Word) (i : Instr) (f : Fault), s.pc.toNat ≤ 0x0FFE ∧ WordAtPc s w ∧ decode w = some i ∧
      exec i { s with pc := s.pc + 2 } = .fault f) :=
  ⟨⟨withProgram [0x6A, 0x05], 0x6A05, .ldImm 10 5, _, by decide, rfl, by decide, rfl⟩,
   ⟨withProgram [0x00, 0xEE], 0x00EE, .ret, _, by decide, rfl, by decide, rfl⟩⟩

theorem wit_FetchPastEndFaults : 0x0FFE < (State.reset.setPc 0x0FFF).pc.toNat := by decide

/-- UnrecognizedWordFaults, and FaultChangesNothing: a cycle that faults. -/
theorem wit_UnrecognizedWordFaults : State.reset.pc.toNat ≤ 0x0FFE ∧ WordAtPc State.reset 0x0000 ∧
    decode 0x0000 = none ∧ step State.reset = .fault (.unknownInstruction 0x0000) :=
  ⟨by decide, rfl, by decide, rfl⟩

/-- CycleFaultsExactlyAsTabled: every sub-cause but Fetch is raised somewhere, at a boundary value. -/
theorem wit_CycleFaultsExactlyAsTabled :
    Raises (.call 0) { State.reset with sp := 16 } .stackOverflow ∧ Raises .ret State.reset .stackUnderflow ∧
    Raises (.drw 0 1 2) (withI 0xFFF 0 0) .drawMemory ∧ Raises (.drw 0 1 1) (withSprite 63 0 [0xC0]) .drawFramebuffer ∧
    Raises (.ldB 0) (withI 0xFFE 0 0) .bcdStore ∧ Raises (.stRegs 1) (withI 0xFFF 0 0) .blockStore ∧
    Raises (.ldRegs 15) (withI 0xFF1 0 0) .blockLoad ∧ Raises (.ldB 0) (withI 0x04E 0 0) .romWrite ∧
    Raises (.skp 5) (withRegs 5 0x10 0 0) .keypad := by
  refine ⟨⟨rfl, by decide⟩, ⟨rfl, by decide⟩, .inl ⟨rfl, by decide⟩, .inr ⟨rfl, by decide, 0, 1, by decide, by decide, by unfold SpriteBit; decide, by decide⟩,
    .inl ⟨rfl, by decide⟩, .inl ⟨rfl, by decide⟩, ⟨rfl, by decide⟩, .inr ⟨rfl, by decide, 0x050, by decide⟩,
    ⟨rfl, by decide⟩⟩

/-- TimersTickOncePerCycle, NoCycleChangesKeys: a cycle that completes. -/
theorem wit_completed_cycle : ∃ t, step (State.reset.withFetchWord 16 0x6A05) = .next t :=
  next_of_isSome (by decide)

/-- DelayCountsDownEveryCycle: a run of two cycles without `Fx15`. -/
theorem wit_DelayCountsDownEveryCycle : ∃ t, Executes ((withProgram [0x6A, 0x05, 0x7A, 0x03]).setDt 5)
    [.ldImm 10 5, .addImm 10 3] t ∧ ∀ x, Instr.ldDtVx x ∉ [.ldImm 10 5, .addImm 10 3] := by
  have h : (runInstrs ((withProgram [0x6A, 0x05, 0x7A, 0x03]).setDt 5) [.ldImm 10 5, .addImm 10 3]).isSome = true := by
    decide
  obtain ⟨t, ht⟩ := Option.isSome_iff_exists.1 h
  exact ⟨t, executes_of_runInstrs _ _ _ ht, by simp⟩

/-- FlagChangesOnlyAsListed: a completed cycle that changes VF. -/
theorem wit_FlagChangesOnlyAsListed : ∃ s t, Fetches s (.addReg 1 2) ∧ step s = .next t ∧ t.readV VF ≠ s.readV VF :=
  ⟨((withRegs 1 0xFF 2 1).withFetchWord 16 0x8124), _, fetches_of (w := 0x8124) (by decide) (by decide), rfl, by decide⟩

/-- CallPushesAndJumps, ReturnPops: both clauses, at the boundary values of sp. -/
theorem wit_Stack : ({ State.reset with sp := 15 } : State).sp.val < 16 ∧ ({ State.reset with sp := 16 } : State).sp.val = 16 ∧
    0 < ({ State.reset with sp := 1 } : State).sp.val ∧ State.reset.sp.val = 0 := by decide

/-- CycleMovesPcAsTabled, OnlyCallAndReturnTouchStack, OnlyThreeInstructionsWriteIndex, OnlyStoresChangeMemory,
OnlyClearAndDrawChangeFramebuffer: a completed cycle of a known instruction, which changes I. -/
theorem wit_known_cycle : ∃ s t, Fetches s (.ldI 0x300) ∧ step s = .next t ∧ t.i ≠ s.i :=
  ⟨State.reset.withFetchWord 16 0xA300, _, fetches_of (w := 0xA300) (by decide) (by decide), rfl, by decide⟩

/-- OnlyStoresChangeMemory: a completed cycle that changes a byte. -/
theorem wit_OnlyStoresChangeMemory : ∃ s t, Fetches s (.ldB 0) ∧ step s = .next t ∧ t.mem.read 0x300 ≠ s.mem.read 0x300 :=
  ⟨(withI 0x300 0 0xFE).withFetchWord 16 0xF033, _, fetches_of (w := 0xF033) (by decide) (by decide), rfl, by decide⟩

/-- CallsAndReturnsPair: two calls, the second at the first's target, and two returns. -/
theorem wit_CallsAndReturnsPair : ∃ t, Executes (withProgram [0x22, 0x04, 0x00, 0x00, 0x22, 0x08, 0x00, 0xEE, 0x00, 0xEE])
    ([0x204, 0x208].map Instr.call ++ List.replicate 2 Instr.ret) t ∧
    State.reset.sp.val + [(0x204 : BitVec 12), 0x208].length ≤ 16 := by
  have h : (runInstrs (withProgram [0x22, 0x04, 0x00, 0x00, 0x22, 0x08, 0x00, 0xEE, 0x00, 0xEE])
    ([0x204, 0x208].map Instr.call ++ List.replicate 2 Instr.ret)).isSome = true := by decide
  obtain ⟨t, ht⟩ := Option.isSome_iff_exists.1 h
  exact ⟨t, executes_of_runInstrs _ _ _ ht, by decide⟩

/-- BcdStore: each clause at the boundary values of I. -/
theorem wit_BcdStore : (withI 0xFFD 0 0).mem.wf ∧ (withI 0xFFD 0 0).i.toNat + 2 ≤ 0x0FFF ∧
    0x09F < (withI 0x0A0 0 0).i.toNat ∧ (withI 0x04D 0 0).i.toNat < 0x04E ∧ 0x0FFE ≤ (withI 0xFFE 0 0).i.toNat ∧
    0x04E ≤ (withI 0x04E 0 0).i.toNat ∧ (withI 0x09F 0 0).i.toNat ≤ 0x09F := by decide

/-- BlockStore, BlockLoad: each clause at the boundary values of I + X. -/
theorem wit_BlockStore : (withI 0xFF0 0 0).mem.wf ∧ (withI 0xFF0 0 0).i.toNat + (15 : Reg).val ≤ 0x0FFF ∧
    (withI 0x040 0 0).i.toNat + (15 : Reg).val < 0x050 ∧ 0x09F < (withI 0x0A0 0 0).i.toNat ∧
    0x0FFF < (withI 0xFF1 0 0).i.toNat + (15 : Reg).val ∧ 0x050 ≤ (withI 0x041 0 0).i.toNat + (15 : Reg).val ∧
    (withI 0x041 0 0).i.toNat ≤ 0x09F := by decide

/-- StoreThenLoadRestoresRegisters: a store that completes, and a later state with other registers. -/
theorem wit_StoreThenLoadRestoresRegisters : ∃ s t u : State, s.mem.wf ∧ exec (.stRegs 1) s = .next t ∧ u.i = t.i ∧
    (∀ k, k ≤ (1 : Reg).val → u.mem.read (t.i.toNat + k) = t.mem.read (t.i.toNat + k)) ∧ u.readV 0 ≠ t.readV 0 :=
  ⟨(withRegs 0 0x11 1 0x22).setI 0x400, _, ((withRegs 0 0x11 1 0x22).setI 0x400).setMem
    (State.reset.mem.writeBytes 0x400 [0x11, 0x22]) |>.writeV 0 9, by decide, rfl, rfl, fun _ _ => rfl, by decide⟩

/-- StoredBytesAreFetched: a store into the bytes at pc (the shape of program P8). -/
theorem wit_StoredBytesAreFetched : ∃ s t : State, s.mem.wf ∧ exec (.stRegs 1) s = .next t ∧
    t.pc.toNat = s.i.toNat + 0 ∧ decode (wordOfBytes (s.readV ⟨0, by omega⟩) (s.readV ⟨0 + 1, by omega⟩)) = some (.ldImm 10 0x77) :=
  ⟨((withRegs 0 0x6A 1 0x77).setI 0x208).setPc 0x208, _, by decide, rfl, by decide, by decide⟩

theorem wit_on_screen : ¬ OffScreen (withSprite 63 31 [0x80]) 63 31 1 := by
  rintro ⟨r, c, hr, hc, hb, ho⟩
  have hr0 : r = 0 := by omega
  subst hr0
  have : ∀ c < 8, 0 < c → ((withSprite 63 31 [0x80]).mem.read ((withSprite 63 31 [0x80]).i.toNat + 0)).getLsbD (7 - c) = false := by
    decide
  unfold SpriteBit at hb
  rcases Nat.eq_zero_or_pos c with h | h
  · subst h; omega
  · rw [this c hc h] at hb; simp at hb

/-- DrawTogglesSetBits: each clause at the edge of the screen and of memory. -/
theorem wit_DrawTogglesSetBits :
    ((withSprite 63 31 [0x80]).i.toNat + (1 : BitVec 4).toNat ≤ 4096 ∧
      ¬ OffScreen (withSprite 63 31 [0x80]) ((withSprite 63 31 [0x80]).readV 0).toNat
        ((withSprite 63 31 [0x80]).readV 1).toNat (1 : BitVec 4).toNat) ∧
    4096 < (withI 0xFFF 0 0).i.toNat + (2 : BitVec 4).toNat ∧
    OffScreen (withSprite 63 0 [0xC0]) ((withSprite 63 0 [0xC0]).readV 0).toNat
      ((withSprite 63 0 [0xC0]).readV 1).toNat (1 : BitVec 4).toNat :=
  ⟨⟨by decide, wit_on_screen⟩, by decide, 0, 1, by decide, by decide, by unfold SpriteBit; decide, by decide⟩

/-- DrawTwiceRestores: a draw that completes over a clear screen. -/
theorem wit_DrawTwiceRestores : ∃ t, exec (.drw 0 1 1) (withSprite 0 0 [0xF0]) = .next t ∧
    (0 : Reg) ≠ VF ∧ (1 : Reg) ≠ VF ∧ ∀ col row, (withSprite 0 0 [0xF0]).cell col row = false :=
  ⟨_, rfl, by decide, by decide, by intro col row; simp [withSprite, withRegs, State.reset, State.cell, cellOf]⟩

/-- TimerMovesTickInSameCycle, WaitingCycleOnlyTicks: states that fetch these instructions, no key pressed. -/
theorem wit_timer_and_wait_fetches :
    Fetches (State.reset.withFetchWord 16 0xF107) (.ldVxDt 1) ∧ Fetches (State.reset.withFetchWord 16 0xF015) (.ldDtVx 0) ∧
    Fetches (State.reset.withFetchWord 16 0xF218) (.ldStVx 2) ∧ Fetches (State.reset.withFetchWord 16 0xF50A) (.ldVxK 5) ∧
    ∀ k (h : k < 16), (State.reset.withFetchWord 16 0xF50A).keys[k] = false :=
  ⟨fetches_of (w := 0xF107) (by decide) (by decide), fetches_of (w := 0xF015) (by decide) (by decide),
   fetches_of (w := 0xF218) (by decide) (by decide), fetches_of (w := 0xF50A) (by decide) (by decide), by decide⟩

/-- SkipsOnKeys: both clauses at the boundary values of the key index. -/
theorem wit_SkipsOnKeys : ((withRegs 5 15 0 0).readV 5).toNat < 16 ∧ 15 < ((withRegs 5 16 0 0).readV 5).toNat := by decide

/-- WaitForKey: the highest key alone, and no key. -/
theorem wit_WaitForKey : (State.reset.setKey 15 true).keys[15] = true ∧
    (∀ j (hj : j < 15), (State.reset.setKey 15 true).keys[j] = false) ∧
    ∀ k (h : k < 16), State.reset.keys[k] = false := by decide

/-- LoadWritesProgram: both clauses at the boundary lengths (vectors L2, L3). -/
theorem wit_LoadWritesProgram : State.reset.mem.wf ∧ (List.replicate 3584 (0 : Byte)).length ≤ 3584 ∧
    3584 < (List.replicate 3585 (0 : Byte)).length := 
  ⟨by decide, (List.length_replicate ..).le, by rw [List.length_replicate]; decide⟩

/-- StepKeepsInvariant: a state with the invariant whose cycle completes. -/
theorem wit_StepKeepsInvariant : ∃ s t : State, s.Inv ∧ step s = .next t :=
  ⟨withProgram [0x6A, 0x05], _,
    ⟨by decide, fun k h => by
      rw [withProgram, State.setMem_mem, Memory.read_writeBytes_outside _ _ _ _ (by omega), Memory.writeBytes_font]
      exact Memory.unlisted_font ⟨Config.defaultFont, []⟩ k h, by decide, by decide, by decide⟩, rfl⟩

/-- ReachableStatesMeetInvariant: reset is reachable, and so is what follows a load. -/
theorem wit_ReachableStatesMeetInvariant : Reachable (afterHostOp State.reset (.load [0x6A, 0x05])) :=
  .op _ _ (.reset Config.defaultFont)

end Sys2Proof.Tests
end

section
/-! PROOFS. What a faulting cycle is and leaves, and the fetch past the end of memory (R58, R186). -/

namespace Sys2Proof.Machine

/-- R100: the cycle in which no word can be fetched. -/
theorem step_of_fetch_none {s : State} (h : s.fetch = none) : step s = .fault (.outOfBounds .fetch) := by
  simp [step, h, raise]

/-- R186, R188: the host keeps the state of before an operation that faults. -/
theorem afterHostOp_of_fault {s : State} {op : HostOp} {f : Fault} (h : hostOp s op = .fault f) :
    afterHostOp s op = s := by
  simp [afterHostOp, h]

/-- R188: the host keeps the state of before a cycle that faults (`hostOp` runs `step` for a cycle). -/
theorem afterHostOp_cycle_of_fault {s : State} {f : Fault} (h : step s = .fault f) : afterHostOp s .cycle = s :=
  afterHostOp_of_fault (op := .cycle) h

/-- Settles O8: above 0x0FFE no word can be fetched, so the cycle faults, and a fault leaves the host's state alone. -/
theorem fetchPastEndFaults : Obligations.FetchPastEndFaults := by
  intro s hpc
  have hstep : step s = .fault (.outOfBounds .fetch) := step_of_fetch_none (s.fetch_none.mpr hpc)
  exact ⟨hstep, afterHostOp_cycle_of_fault hstep⟩

end Sys2Proof.Machine
end

section
/-! PROOFS. The cycle that fetches a word no row of the table matches (R58, R86). -/

namespace Sys2Proof.Machine

open Sys2Proof.Claims

/-- R56: the word at pc is the one its two bytes make. -/
theorem wordAtPc_iff (s : State) (w : Word) :
    WordAtPc s w ↔ w = wordOfBytes (s.mem.read s.pc.toNat) (s.mem.read (s.pc.toNat + 1)) := by
  rw [WordAtPc, ← wordOfBytes_toNat, BitVec.toNat_inj]

/-- R56, R58: a fetch succeeds up to 0x0FFE, with the word at pc. -/
theorem fetch_eq_some_iff_wordAtPc (s : State) (w : Word) : s.fetch = some w ↔ s.pc.toNat ≤ 0x0FFE ∧ WordAtPc s w := by
  rw [State.fetch_some, wordAtPc_iff]

/-- R86, R100: the cycle whose fetched word does not decode. -/
theorem step_of_decode_none {s : State} {w : Word} (hw : s.fetch = some w) (hd : decode w = none) :
    step s = .fault (.unknownInstruction w) := by
  simp [step, hw, hd]

/-- Settles O9: the word at pc is what the cycle fetches, it does not decode, and a fault leaves the host's state
alone. -/
theorem unrecognizedWordFaults : Obligations.UnrecognizedWordFaults := by
  intro s w hpc hw hd
  have hfetch : s.fetch = some w := (fetch_eq_some_iff_wordAtPc s w).mpr ⟨hpc, hw⟩
  have hstep : step s = .fault (.unknownInstruction w) := step_of_decode_none hfetch hd
  exact ⟨hstep, afterHostOp_cycle_of_fault hstep⟩

end Sys2Proof.Machine
end

section
/-! PROOFS. The frame of a state's updates: what is kept from a state to itself and along two changes, and what a write
of pc, a skip, a push and a pop leave unchanged (R32, R33, R101, R110). -/

namespace Sys2Proof.Claims

open Sys2Proof.Machine

/-! ## Keeping a piece of state -/

theorem Kept.refl (s : State) (p : Part) : Kept s s p := by
  cases p with
  | mem => exact ⟨fun _ => rfl, rfl⟩
  | v => exact fun _ => rfl
  | stack | keys => exact fun _ _ => rfl
  | fb => exact fun _ _ => rfl
  | i | pc | sp | dt | st | draws => rfl

theorem Kept.trans {s t u : State} {p : Part} (h : Kept s t p) (h' : Kept t u p) : Kept s u p := by
  cases p with
  | mem => exact ⟨fun a => (h'.1 a).trans (h.1 a), h'.2.trans h.2⟩
  | v => exact fun r => (h' r).trans (h r)
  | stack | keys => exact fun k hk => (h' k hk).trans (h k hk)
  | fb => exact fun col row => (h' col row).trans (h col row)
  | i | pc | sp | dt | st | draws => exact Eq.trans h' h

theorem KeptBut.refl (s : State) (ps : List Part) : KeptBut s s ps := fun p _ => Kept.refl s p

/-- What two changes in a row may have changed is what either may. -/
theorem KeptBut.trans {s t u : State} {ps qs : List Part} (h : KeptBut s t ps) (h' : KeptBut t u qs) :
    KeptBut s u (ps ++ qs) := by
  intro p hp
  rw [List.mem_append, not_or] at hp
  exact (h p hp.1).trans (h' p hp.2)

/-! ## The updates of jumps, skips, calls and returns -/

theorem keptBut_setPc (s : State) (a : Word) : KeptBut s (s.setPc a) [.pc] := by
  intro p hp
  have hself : Kept s s p := Kept.refl s p
  cases p with
  | pc => simp at hp
  | _ => exact hself

theorem keptBut_skipIf (s : State) (c : Bool) : KeptBut s (s.skipIf c) [.pc] := by
  cases c with
  | false => exact KeptBut.refl s _
  | true => exact keptBut_setPc s _

theorem keptBut_pushed (s : State) (a : Word) (h : s.sp.val < 16) : KeptBut s (s.pushed a h) [.stack, .sp] := by
  intro p hp
  have hself : Kept s s p := Kept.refl s p
  cases p with
  | stack | sp => simp at hp
  | _ => exact hself

/-- R33: the entry that a return reads stays in the stack. -/
theorem keptBut_popped (s : State) (h : 0 < s.sp.val) : KeptBut s (s.popped h) [.sp, .pc] := by
  intro p hp
  have hself : Kept s s p := Kept.refl s p
  cases p with
  | sp | pc => simp at hp
  | _ => exact hself

end Sys2Proof.Claims
end

section
/-! PROOFS. Jumps, calls, returns and the skips on registers (R103 to R110), through the effect of each. -/

namespace Sys2Proof.Machine

open Sys2Proof.Claims

/-! ## The stack -/

theorem State.pushed_stack_top (s : State) (a : Word) (h : s.sp.val < 16) : (s.pushed a h).stack[s.sp.val] = a :=
  Vector.getElem_set_self _

theorem State.pushed_stack_of_ne (s : State) (a : Word) (h : s.sp.val < 16) (k : Nat) (hk : k < 16)
    (hne : k ≠ s.sp.val) : (s.pushed a h).stack[k] = s.stack[k] :=
  Vector.getElem_set_ne h hk hne.symm

/-- R103: a call with no room faults. -/
theorem exec_call_of_full (nnn : BitVec 12) {s : State} (h : s.sp.val = 16) :
    exec (.call nnn) s = .fault (.outOfBounds .stackOverflow) := by
  simp only [exec, execCall, s.push_full _ h, raise]

/-- R104: a return with no entry faults. -/
theorem exec_ret_of_empty {s : State} (h : s.sp.val = 0) : exec .ret s = .fault (.outOfBounds .stackUnderflow) :=
  s.popPc_empty h

/-- Settles O25: with room the call's effect is a push and then a jump, each with its frame; without room the push
faults. -/
theorem callPushesAndJumps : Obligations.CallPushesAndJumps := by
  refine fun nnn s => ⟨fun h => ?room, exec_call_of_full nnn⟩
  case room =>
    have hkept : KeptBut s ((s.pushed s.pc h).setPc (zextAddr nnn)) [.stack, .sp, .pc] :=
      (keptBut_pushed s s.pc h).trans (keptBut_setPc _ _)
    exact ⟨_, exec_of_effect (.call nnn h), s.pushed_stack_top s.pc h, s.pushed_stack_of_ne s.pc h, rfl,
      zextAddr_toNat nnn, hkept⟩

/-- Settles O26: with an entry held the return's effect is a pop into pc; with none the pop faults. -/
theorem returnPops : Obligations.ReturnPops := fun s =>
  ⟨fun h => ⟨_, exec_of_effect (.ret h), rfl, rfl, keptBut_popped s h⟩, exec_ret_of_empty⟩

/-! ## Jumps and skips -/

/-- Settles O23: the jump's effect is the write of pc. -/
theorem jumpSetsPc : Obligations.JumpSetsPc := fun nnn s =>
  ⟨_, exec_of_effect (.jp nnn), zextAddr_toNat nnn, keptBut_setPc s _⟩

/-- R110: an instruction whose effect is a skip completes, and moves nothing but pc. -/
theorem exec_of_effect_skipIf {i : Instr} {s : State} {c : Bool} (h : Effect s i (s.skipIf c)) :
    ∃ t, exec i s = .next t ∧ t.pc = (if c then s.pc + 2 else s.pc) ∧ KeptBut s t [.pc] :=
  ⟨_, exec_of_effect h, s.skipIf_pc c, keptBut_skipIf s c⟩

/-- Settles O27: each of the four is a skip on its own comparison; `simpa` reads the comparison as an equation. -/
theorem skipsOnRegisters : Obligations.SkipsOnRegisters := by
  refine ⟨fun x nn s => ?seImm, fun x nn s => ?sneImm, fun x y s => ?seReg, fun x y s => ?sneReg⟩
  case seImm => simpa using exec_of_effect_skipIf (.seImm x nn : Effect s _ _)
  case sneImm => simpa using exec_of_effect_skipIf (.sneImm x nn : Effect s _ _)
  case seReg => simpa using exec_of_effect_skipIf (.seReg x y : Effect s _ _)
  case sneReg => simpa using exec_of_effect_skipIf (.sneReg x y : Effect s _ _)

end Sys2Proof.Machine
end

section
/-! PROOFS. The frame of a register write: the registers and the pieces of state that it leaves unchanged (R21). -/

namespace Sys2Proof.Claims

open Sys2Proof.Machine

theorem keptBut_writeV (s : State) (x : Reg) (b : Byte) : KeptBut s (s.writeV x b) [.v] := by
  intro p hp
  have hself : Kept s s p := Kept.refl s p
  cases p with
  | v => simp at hp
  | _ => exact hself

theorem regsKeptBut_writeV (s : State) (x : Reg) (b : Byte) : RegsKeptBut s (s.writeV x b) [x] := by
  intro r hr
  have hne : r ≠ x := List.ne_of_not_mem_cons hr
  rw [State.readV_writeV, if_neg hne]

end Sys2Proof.Claims
end

section
/-! PROOFS. The register loads, the addition of an immediate and the bitwise logic (R120 to R125): the instructions
whose whole effect is one register write, and so no flag. -/

namespace Sys2Proof.Machine

open Sys2Proof.Claims

/-- R120 to R125: an instruction whose effect is one register write completes with the value written, and moves nothing
but that register. -/
theorem exec_of_effect_writeV {i : Instr} {s : State} {x : Reg} {b : Byte} (h : Effect s i (s.writeV x b)) :
    ∃ t, exec i s = .next t ∧ t.readV x = b ∧ RegsKeptBut s t [x] ∧ KeptBut s t [.v] :=
  ⟨_, exec_of_effect h, (s.readV_writeV x x b).trans (if_pos rfl), regsKeptBut_writeV s x b, keptBut_writeV s x b⟩

/-- Settles O14: each load's effect is the write of its value. -/
theorem registerLoads : Obligations.RegisterLoads :=
  ⟨fun x nn _ => exec_of_effect_writeV (.ldImm x nn), fun x y _ => exec_of_effect_writeV (.ldReg x y)⟩

/-- Settles O15: the effect is the write of the sum of two bytes, which is the sum of the numbers modulo 256. -/
theorem addImmediateWrapsWithoutFlag : Obligations.AddImmediateWrapsWithoutFlag := by
  intro x nn s
  obtain ⟨t, hexec, hx, hframe⟩ := exec_of_effect_writeV (.addImm x nn : Effect s _ _)
  have hsum : (t.readV x).toNat = ((s.readV x).toNat + nn.toNat) % 256 := by rw [hx, BitVec.toNat_add]
  exact ⟨t, hexec, hsum, hframe⟩

/-- R123 to R125: `exec_of_effect_writeV` with the written value given bit by bit. -/
theorem exec_of_effect_writeV_bits {i : Instr} {s : State} {x : Reg} {b : Byte} {f : Nat → Bool}
    (h : Effect s i (s.writeV x b)) (hbits : ∀ k, b.getLsbD k = f k) :
    ∃ t, exec i s = .next t ∧ (∀ k, (t.readV x).getLsbD k = f k) ∧ RegsKeptBut s t [x] ∧ KeptBut s t [.v] := by
  obtain ⟨t, hexec, rfl, hframe⟩ := exec_of_effect_writeV h
  exact ⟨t, hexec, hbits, hframe⟩

/-- Settles O16: each of the three writes the bit vector operation, whose bits are the operation on the bits. -/
theorem bitwiseLogic : Obligations.BitwiseLogic := by
  refine fun x y s => ⟨?or, ?and, ?xor⟩
  case or => exact exec_of_effect_writeV_bits (.orReg x y) fun _ => BitVec.getLsbD_or
  case and => exact exec_of_effect_writeV_bits (.andReg x y) fun _ => BitVec.getLsbD_and
  case xor => exact exec_of_effect_writeV_bits (.xorReg x y) fun _ => BitVec.getLsbD_xor

end Sys2Proof.Machine
end

section
/-! PROOFS. The frame of a write of I and of a block load: the pieces of state that they leave unchanged (R140, R145). -/

namespace Sys2Proof.Claims

open Sys2Proof.Machine

theorem keptBut_setI (s : State) (a : Word) : KeptBut s (s.setI a) [.i] := by
  intro p hp
  have hself : Kept s s p := Kept.refl s p
  cases p with
  | i => simp at hp
  | _ => exact hself

/-- Stated for any register file, so that a frame never evaluates the one a load builds. -/
theorem keptBut_withV (s : State) (v : Vector Byte 16) : KeptBut s { s with v := v } [.v] := by
  intro p hp
  have hself : Kept s s p := Kept.refl s p
  cases p with
  | v => simp at hp
  | _ => exact hself

theorem keptBut_loadRegs (s : State) (x : Reg) (base : Nat) : KeptBut s (s.loadRegs x base) [.v] := keptBut_withV s _

end Sys2Proof.Claims
end

section
/-! PROOFS. The write of I by an immediate, the block load, and a block store undone by a block load (R140, R144, R145,
R147), through the effect of each. -/

namespace Sys2Proof.Machine

open Sys2Proof.Claims

/-! ## Index register -/

/-- Settles O31: the effect is the write of I. -/
theorem loadIndexImmediate : Obligations.LoadIndexImmediate := fun nnn s =>
  ⟨_, exec_of_effect (.ldI nnn), zextAddr_toNat nnn, keptBut_setI s _⟩

/-! ## Block load -/

theorem State.readV_loadRegs_of_le (s : State) {x r : Reg} (base : Nat) (h : r.val ≤ x.val) :
    (s.loadRegs x base).readV r = s.mem.read (base + r.val) := by
  rw [State.readV_loadRegs, if_pos h]

theorem State.readV_loadRegs_of_gt (s : State) {x r : Reg} (base : Nat) (h : x.val < r.val) :
    (s.loadRegs x base).readV r = s.readV r := by
  rw [State.readV_loadRegs, if_neg (Nat.not_le.mpr h)]

/-- R59, R145: a load whose last byte lies past the end of memory faults. -/
theorem exec_ldRegs_of_past_end {x : Reg} {s : State} (h : 0x0FFF < s.i.toNat + x.val) :
    exec (.ldRegs x) s = .fault (.outOfBounds .blockLoad) := by
  have hout : ¬ s.i.toNat + (x.val + 1) ≤ 4096 := by omega
  simp [exec, execLdRegs, inMemory, hout, raise]

/-- Settles O36: inside memory the effect is the load of V[0] to V[x]; past the end the range check faults. -/
theorem blockLoad : Obligations.BlockLoad := by
  refine fun x s => ⟨fun h => ?inside, exec_ldRegs_of_past_end⟩
  case inside =>
    have hm : s.i.toNat + (x.val + 1) ≤ 4096 := by omega
    exact ⟨_, exec_of_effect (.ldRegs x hm), fun _ => s.readV_loadRegs_of_le _, fun _ => s.readV_loadRegs_of_gt _,
      keptBut_loadRegs s x _⟩

/-! ## Block store, then block load -/

/-- R144: what a completed block store leaves: I as it was, the stored range inside memory, and V[r] as the byte at
I + r for every r up to x. -/
theorem exec_stRegs_next {x : Reg} {s t : State} (hwf : s.mem.wf) (h : exec (.stRegs x) s = .next t) :
    t.i = s.i ∧ s.i.toNat + x.val ≤ 0x0FFF ∧
      ∀ r : Reg, r.val ≤ x.val → t.mem.read (s.i.toNat + r.val) = s.readV r := by
  cases effect_of_exec h with
  | stRegs _ hm _ =>
    refine ⟨rfl, by omega, fun r hr => ?_⟩
    have hk : r.val < (s.regsUpTo x).length := by rw [State.regsUpTo_length]; omega
    have hrange : s.i.toNat + (s.regsUpTo x).length ≤ 4096 := by rw [State.regsUpTo_length]; exact hm
    calc (s.mem.writeBytes s.i.toNat (s.regsUpTo x)).read (s.i.toNat + r.val)
      _ = (s.regsUpTo x)[r.val] := Memory.read_writeBytes_inside _ _ _ _ hk hrange hwf
      _ = s.readV r := s.getElem_regsUpTo x _ hk

/-- Settles O37: the load from I finds in memory, byte by byte, the registers that the store put there. -/
theorem storeThenLoadRestoresRegisters : Obligations.StoreThenLoadRestoresRegisters := by
  intro x s t u hwf hstore hi hbytes
  obtain ⟨hti, hinside, hstored⟩ := exec_stRegs_next hwf hstore
  have hui : u.i = s.i := hi.trans hti
  obtain ⟨w, hload, hloaded, -, -⟩ := (blockLoad x u).1 (by rw [hui]; exact hinside)
  refine ⟨w, hload, fun r hr => ?_⟩
  calc w.readV r
    _ = u.mem.read (t.i.toNat + r.val) := by rw [hloaded r hr, hi]
    _ = t.mem.read (t.i.toNat + r.val) := hbytes r.val hr
    _ = s.readV r := by rw [hti, hstored r hr]

end Sys2Proof.Machine
end

section
/-! PROOFS. The frame of a write of the framebuffer: the pieces of state that it leaves unchanged (R150). -/

namespace Sys2Proof.Claims

open Sys2Proof.Machine

theorem keptBut_setFb (s : State) (fb : Vector (BitVec 64) 32) : KeptBut s (s.setFb fb) [.fb] := by
  intro p hp
  have hself : Kept s s p := Kept.refl s p
  cases p with
  | fb => simp at hp
  | _ => exact hself

end Sys2Proof.Claims
end

section
/-! PROOFS. The clear of the screen (R150), through its effect: the write of a framebuffer with no cell set. -/

namespace Sys2Proof.Machine

open Sys2Proof.Claims

/-- A framebuffer of zero rows has no cell set, on the grid or off it. -/
@[simp] theorem cellOf_replicate_zero (q : Nat × Nat) : cellOf (Vector.replicate 32 0) q = false := by
  unfold cellOf
  split
  · rw [Vector.getElem_replicate, BitVec.ofNat_eq_ofNat, BitVec.getLsbD_zero]
  · rfl

/-- Of two writes of the framebuffer the second one stands. -/
@[simp] theorem State.setFb_setFb (s : State) (fb fb' : Vector (BitVec 64) 32) :
    (s.setFb fb).setFb fb' = s.setFb fb' := rfl

/-- Settles O40: the effect is the write of the clear framebuffer, and a second such write changes nothing. -/
theorem clearScreen : Obligations.ClearScreen := by
  intro s
  have hclear : ∀ u : State, exec .cls u = .next (u.setFb (Vector.replicate 32 0)) := fun _ => exec_of_effect .cls
  have hagain : exec .cls (s.setFb (Vector.replicate 32 0)) = .next (s.setFb (Vector.replicate 32 0)) := by
    rw [hclear, State.setFb_setFb]
  exact ⟨_, hclear s, fun col row => cellOf_replicate_zero (col, row), keptBut_setFb s _, hagain⟩

end Sys2Proof.Machine
end

section
/-! PROOFS. The frame of the tick: it leaves everything but the two timers unchanged (R102, R160). -/

namespace Sys2Proof.Claims

open Sys2Proof.Machine

theorem keptBut_tick (s : State) : KeptBut s s.tick [.dt, .st] := by
  intro p hp
  have hself : Kept s s p := Kept.refl s p
  cases p with
  | dt | st => simp at hp
  | _ => exact hself

end Sys2Proof.Claims
end

section
/-! PROOFS. The timers over a cycle (R160, R162, R163): which instructions write them, and the tick that ends every
completed cycle. -/

namespace Sys2Proof.Machine

open Sys2Proof.Claims

/-- R162: of all effects only that of `Fx15` writes DT. -/
theorem Effect.dt_eq {s t : State} {i : Instr} (h : Effect s i t) (hi : ∀ x, i ≠ .ldDtVx x) : t.dt = s.dt := by
  cases h with
  | ldDtVx x => exact absurd rfl (hi x)
  | seImm | sneImm | seReg | sneReg | skp | sknp => exact s.skipIf_dt _
  | _ => rfl

/-- R163: of all effects only that of `Fx18` writes ST. -/
theorem Effect.st_eq {s t : State} {i : Instr} (h : Effect s i t) (hi : ∀ x, i ≠ .ldStVx x) : t.st = s.st := by
  cases h with
  | ldStVx x => exact absurd rfl (hi x)
  | seImm | sneImm | seReg | sneReg | skp | sknp => exact s.skipIf_st _
  | _ => rfl

/-- R100: a completed cycle fetched an instruction, whose execute step, at pc past the word, left the state that the
tick then ends. -/
theorem step_next_fetches {s t : State} (h : step s = .next t) :
    ∃ i u, Fetches s i ∧ exec i s.advance = .next u ∧ t = u.tick := by
  obtain ⟨w, i, u, hfetch, hdecode, hexec, ht⟩ := step_next h
  obtain ⟨hpc, hword⟩ := (fetch_eq_some_iff_wordAtPc s w).mp hfetch
  exact ⟨i, u, ⟨hpc, w, hword, hdecode⟩, hexec, ht⟩

/-- Settles O12: the cycle ends with the tick of what the execute step left, and that step's effect writes a timer only
for `Fx15` and `Fx18`; the advance of pc before it writes neither. -/
theorem timersTickOncePerCycle : Obligations.TimersTickOncePerCycle := by
  intro s t h
  obtain ⟨i, u, hfetches, hexec, rfl⟩ := step_next_fetches h
  have heffect : Effect s.advance i u := effect_of_exec hexec
  exact ⟨i, u, hfetches, hexec, decay_toNat u.dt, decay_toNat u.st, keptBut_tick u, heffect.dt_eq, heffect.st_eq⟩

end Sys2Proof.Machine
end

section
/-! PROOFS. The frame of a write of memory: the pieces of state that it leaves unchanged (R61). -/

namespace Sys2Proof.Claims

open Sys2Proof.Machine

theorem keptBut_setMem (s : State) (m : Memory) : KeptBut s (s.setMem m) [.mem] := by
  intro p hp
  have hself : Kept s s p := Kept.refl s p
  cases p with
  | mem => simp at hp
  | _ => exact hself

end Sys2Proof.Claims
end

section
/-! PROOFS. The host's load of a program (R213, R214): what it writes when the program fits, and the fault when it does
not. -/

namespace Sys2Proof.Machine

open Sys2Proof.Claims

/-- R213: a program that fits is written from 0x200 on. -/
theorem State.load_of_fits (s : State) {bytes : List Byte} (h : bytes.length ≤ 3584) :
    s.load bytes = .next (s.setMem (s.mem.writeBytes 0x200 bytes)) :=
  if_neg (Nat.not_lt.mpr h)

/-- R214: a program that does not fit is refused with its length. -/
theorem State.load_of_too_large (s : State) {bytes : List Byte} (h : 3584 < bytes.length) :
    s.load bytes = .fault (.loadTooLarge bytes.length) :=
  if_pos h

/-- Settles O52: a program that fits is one run of bytes written inside memory, and a load that faults leaves the host's
state alone. -/
theorem loadWritesProgram : Obligations.LoadWritesProgram := by
  refine fun s bytes hwf => ⟨fun h => ?fits, fun h => ?tooLarge⟩
  case fits =>
    have hrange : 0x200 + bytes.length ≤ 4096 := by omega
    exact ⟨_, s.load_of_fits h, fun k hk => s.mem.read_writeBytes_inside bytes _ k hk hrange hwf,
      fun a ha => s.mem.read_writeBytes_outside bytes _ a ha, s.mem.writeBytes_wf bytes _ hrange hwf,
      s.mem.writeBytes_font bytes _, keptBut_setMem s _⟩
  case tooLarge =>
    have hload : hostOp s (.load bytes) = .fault (.loadTooLarge bytes.length) := s.load_of_too_large h
    exact ⟨hload, afterHostOp_of_fault hload⟩

end Sys2Proof.Machine
end

section
/-! PROOFS. The state after reset (R37, R54, R210). -/

namespace Sys2Proof.Machine

open Sys2Proof.Claims

/-- R37: after reset no byte is listed, so each reads as its reset content. -/
theorem State.resetWith_read (font : Vector Byte 80) (a : Nat) :
    (State.resetWith font).mem.read a = (State.resetWith font).mem.unlisted a := rfl

/-- Settles O50: the vectors of reset are constant, and its memory reads as FONT in the font and as zero elsewhere. -/
theorem resetValues : Obligations.ResetValues := by
  refine ⟨⟨Config.defaultFont, rfl⟩, fun font => ?_⟩
  have hstack : ∀ k (h : k < 16), (State.resetWith font).stack[k] = 0 := fun _ h => Vector.getElem_replicate h
  have hcells : ∀ col row, (State.resetWith font).cell col row = false := fun col row =>
    cellOf_replicate_zero (col, row)
  have hkeys : ∀ k (h : k < 16), (State.resetWith font).keys[k] = false := fun _ h => Vector.getElem_replicate h
  have hfont : ∀ k (h : k < 80), (State.resetWith font).mem.read (0x050 + k) = font[k] := fun k h =>
    (State.resetWith_read font _).trans (Memory.unlisted_font _ k h)
  have hother : ∀ a, (a < 0x050 ∨ 0x09F < a) → (State.resetWith font).mem.read a = 0 := fun a h =>
    (State.resetWith_read font a).trans (Memory.unlisted_other _ a h)
  exact ⟨State.readV_resetWith font, rfl, rfl, rfl, hstack, rfl, rfl, hcells, hkeys, hfont, hother⟩

end Sys2Proof.Machine
end

section
/-! PROOFS. The decoder against the encoder (R80 to R85): each gives back what the other made, on words and on bytes. -/

namespace Sys2Proof

/-! ## Decode of encode -/

/-- R83, R84: every instruction's word decodes to it. The laws of the formats give `decode` the fields it dispatches
on. -/
theorem decode_encode (i : Instr) : decode (encode i) = some i := by
  cases i with
  | cls | ret => rfl
  | jp | call | ldI | jpV0 => simp [encode, decode]
  | seImm | sneImm | ldImm | addImm | rnd => simp [encode, decode]
  | seReg | sneReg | drw => simp [encode, decode]
  | ldReg | orReg | andReg | xorReg | addReg | sub | shr | subn | shl => simp [encode, decode, decode8]
  | skp | sknp => simp [encode, decode, decodeE]
  | ldVxDt | ldVxK | ldDtVx | ldStVx | addI | ldF | ldB | stRegs | ldRegs => simp [encode, decode, decodeF]

/-- Settles O2, through the fields that each format gives back. -/
theorem decodeOfEncode : Obligations.DecodeOfEncode := decode_encode

/-! ## A word is put together from its fields -/

section
variable {w : Word} {op : BitVec 4}

theorem encNNN_fields (hop : (opField w).toNat = op.toNat) : encNNN op (nnnField w) = w := by
  have := w.isLt
  rw [opField_toNat] at hop
  apply BitVec.eq_of_toNat_eq; rw [encNNN_toNat, nnnField_toNat]; omega

theorem encXNN_fields (hop : (opField w).toNat = op.toNat) : encXNN op (xField w) (nnField w) = w := by
  have := w.isLt
  rw [opField_toNat] at hop
  apply BitVec.eq_of_toNat_eq; rw [encXNN_toNat, xField_val, nnField_toNat]; omega

theorem encXYN_fields {n : BitVec 4} (hop : (opField w).toNat = op.toNat) (hn : nField w = n) :
    encXYN op (xField w) (yField w) n = w := by
  have := w.isLt
  rw [opField_toNat] at hop
  apply BitVec.eq_of_toNat_eq; rw [← hn, encXYN_toNat, xField_val, yField_val, nField_toNat]; omega

end

/-! ## Encode of decode -/

/-- Group 8 keeps its three fields, the Y of the shifts among them. -/
theorem encode_of_decode8 {x y : Reg} {n : BitVec 4} {i : Instr} (h : decode8 x y n = some i) :
    encode i = encXYN 0x8 x y n := by
  unfold decode8 at h
  split at h <;> cases h <;> rename_i hn <;> exact congrArg (encXYN 0x8 x y) (BitVec.eq_of_toNat_eq hn.symm)

/-- Group E keeps its two fields. -/
theorem encode_of_decodeE {x : Reg} {nn : Byte} {i : Instr} (h : decodeE x nn = some i) :
    encode i = encXNN 0xE x nn := by
  unfold decodeE at h
  split at h <;> cases h <;> rename_i hnn <;> exact congrArg (encXNN 0xE x) (BitVec.eq_of_toNat_eq hnn.symm)

/-- Group F keeps its two fields. -/
theorem encode_of_decodeF {x : Reg} {nn : Byte} {i : Instr} (h : decodeF x nn = some i) :
    encode i = encXNN 0xF x nn := by
  unfold decodeF at h
  split at h <;> cases h <;> rename_i hnn <;> exact congrArg (encXNN 0xF x) (BitVec.eq_of_toNat_eq hnn.symm)

/-- R83, R84: a word that decodes is put together again from the fields that the decoder kept. -/
theorem encode_of_decode {w : Word} {i : Instr} (h : decode w = some i) : encode i = w := by
  unfold decode at h
  split at h <;> rename_i hop
  case h_1 => -- the two words of group 0
    split at h
    · cases h; exact Eq.symm ‹_›
    · split at h <;> cases h; exact Eq.symm ‹_›
  case h_6 | h_10 => -- skips on two registers: N must be 0
    split at h <;> cases h; exact encXYN_fields hop ‹_›
  case h_9 => exact (encode_of_decode8 h).trans (encXYN_fields hop rfl)
  case h_14 => cases h; exact encXYN_fields hop rfl
  case h_15 => exact (encode_of_decodeE h).trans (encXNN_fields hop)
  case h_16 => exact (encode_of_decodeF h).trans (encXNN_fields hop)
  case h_2 | h_3 | h_11 | h_12 => cases h; exact encNNN_fields hop
  case h_4 | h_5 | h_7 | h_8 | h_13 => cases h; exact encXNN_fields hop
  case h_17 => cases h

/-- Settles O3, through the fields that the decoder keeps. -/
theorem encodeOfDecode : Obligations.EncodeOfDecode := fun _ _ => encode_of_decode

/-! ## Bytes -/

/-- R56: the two bytes of a word make the word. -/
theorem wordOfBytes_bytes (w : Word) : wordOfBytes (w.extractLsb' 8 8) (w.extractLsb' 0 8) = w :=
  BitVec.extractLsb'_append_extractLsb'_eq_extractLsb' rfl |>.trans (BitVec.extractLsb'_eq_self)

/-- Settles O4: the two bytes make the instruction's word again, high byte first. -/
theorem bytesDecodeInOrder : Obligations.BytesDecodeInOrder := by
  intro i rest
  simp [encodeBytes, decodeBytes, wordOfBytes_bytes, decode_encode]

/-- Settles O1: each word is a closed term, so the decoder runs on it. -/
theorem wordsDecodeAsTabled : Obligations.WordsDecodeAsTabled := by
  unfold Obligations.WordsDecodeAsTabled
  decide

end Sys2Proof
end

section
/-! PROOFS. The decoder against the opcode table (R83, R84), and the words that no row covers (R87). -/

namespace Sys2Proof

/-! ## What a covered word has in common with the pattern of the row -/

section
variable {w m v : Word} (h : w &&& m = v)
include h

/-- A mask that keeps the top nibble makes the word's OP that of the pattern. -/
theorem opField_of_mask (hm : opField m = 0xF) : opField w = opField v := by
  have hand : opField (w &&& m) = opField w &&& opField m := BitVec.extractLsb'_and
  rw [← h, hand, hm]
  exact (and_ones4 _).symm

/-- A mask that keeps the low nibble makes the word's N that of the pattern. -/
theorem nField_of_mask (hm : nField m = 0xF) : nField w = nField v := by
  have hand : nField (w &&& m) = nField w &&& nField m := BitVec.extractLsb'_and
  rw [← h, hand, hm]
  exact (and_ones4 _).symm

/-- A mask that keeps the low byte makes the word's NN that of the pattern. -/
theorem nnField_of_mask (hm : nnField m = 0xFF) : nnField w = nnField v := by
  have hand : nnField (w &&& m) = nnField w &&& nnField m := BitVec.extractLsb'_and
  rw [← h, hand, hm]
  exact (and_ones8 _).symm

end

/-! ## The rows -/

theorem Instr.row_mem_opcodeTable (i : Instr) : i.row ∈ opcodeTable := by
  cases i <;> simp [opcodeTable, oneOfEachRow, Instr.row]

/-- R83: a word that a row covers decodes to an instruction of that row. The fields that `decode` dispatches on lie
under the row's mask, so they are those of its pattern. -/
theorem decode_of_row (i : Instr) {w : Word} (h : w &&& i.row.mask = i.row.pattern) :
    ∃ j : Instr, decode w = some j ∧ j.row = i.row := by
  cases i with
  | cls | ret => -- mask FFFF: the word is the pattern
    obtain rfl : w = _ := BitVec.and_allOnes.symm.trans h
    exact ⟨_, rfl, rfl⟩
  | jp | call | seImm | sneImm | ldImm | addImm | ldI | jpV0 | rnd | drw => -- mask F000
    simp only [Instr.row] at h
    rw [decode, opField_of_mask h rfl]
    exact ⟨_, rfl, rfl⟩
  | seReg | ldReg | orReg | andReg | xorReg | addReg | sub | shr | subn | shl | sneReg => -- mask F00F
    simp only [Instr.row] at h
    rw [decode, opField_of_mask h rfl, nField_of_mask h rfl]
    exact ⟨_, rfl, rfl⟩
  | skp | sknp | ldVxDt | ldVxK | ldDtVx | ldStVx | addI | ldF | ldB | stRegs | ldRegs => -- mask F0FF
    simp only [Instr.row] at h
    rw [decode, opField_of_mask h rfl, nnField_of_mask h rfl]
    exact ⟨_, rfl, rfl⟩

/-- R83, R84: a word is covered by the row of what it decodes to. -/
theorem row_of_decode {w : Word} {i : Instr} (h : decode w = some i) : w &&& i.row.mask = i.row.pattern := by
  rw [← encode_of_decode h]
  exact Laws.RowOfEncoding.all i

/-- Settles O5: a covering row and the decoded instruction determine each other. -/
theorem decodeAgreesWithOpcodeTable : Obligations.DecodeAgreesWithOpcodeTable := by
  have hrow : ∀ (w : Word), ∀ r ∈ opcodeTable, w &&& r.mask = r.pattern →
      ∃ j : Instr, decode w = some j ∧ j.row = r := by
    intro w r hr h
    obtain ⟨i, -, rfl⟩ := List.mem_map.mp hr
    exact decode_of_row i h
  refine ⟨fun w => ⟨?decodes, ?covered⟩, fun w i h => ⟨i.row_mem_opcodeTable, row_of_decode h⟩, ?disjoint⟩
  case decodes => rintro ⟨i, h⟩; exact ⟨i.row, i.row_mem_opcodeTable, row_of_decode h⟩
  case covered => rintro ⟨r, hr, h⟩; exact (hrow w r hr h).imp fun _ => And.left
  case disjoint =>
    intro w r hr r' hr' h h'
    obtain ⟨i, hi, rfl⟩ := hrow w r hr h
    obtain ⟨j, hj, rfl⟩ := hrow w r' hr' h'
    rw [Option.some.inj (hi.symm.trans hj)]

/-! ## The unrecognized words -/

theorem decode8_eq_none (x y : Reg) (n : BitVec 4) :
    decode8 x y n = none ↔ n.toNat ∈ [0x8, 0x9, 0xA, 0xB, 0xC, 0xD, 0xF] := by
  have hn := n.isLt
  unfold decode8
  split
  case h_10 => simp_all; omega
  all_goals simp [*]

theorem decodeE_eq_none (x : Reg) (nn : Byte) : decodeE x nn = none ↔ nn.toNat ∉ [0x9E, 0xA1] := by
  unfold decodeE
  split <;> simp_all

theorem decodeF_eq_none (x : Reg) (nn : Byte) :
    decodeF x nn = none ↔ nn.toNat ∉ [0x07, 0x0A, 0x15, 0x18, 0x1E, 0x29, 0x33, 0x55, 0x65] := by
  unfold decodeF
  split <;> simp_all

/-- Settles O6: the top nibble picks the group, and each group's decoder says which words of it fail. -/
theorem unrecognizedWordsExactly : Obligations.UnrecognizedWordsExactly := by
  intro w
  have hop : w.toNat / 4096 = (opField w).toNat := by have := w.isLt; rw [opField_toNat]; omega
  rw [hop, ← nField_toNat, ← nnField_toNat]
  unfold decode
  split <;> rename_i h
  case h_1 =>
    have hcls : w = 0x00E0 ↔ w.toNat = 0x00E0 := BitVec.toNat_inj.symm
    have hret : w = 0x00EE ↔ w.toNat = 0x00EE := BitVec.toNat_inj.symm
    simp only [hcls, hret]
    split_ifs <;> simp [*]
  case h_6 | h_10 => -- N must be 0
    simp [h, ← BitVec.toNat_inj]
  case h_9 => simp [h, decode8_eq_none]
  case h_15 => simp [h, decodeE_eq_none]
  case h_16 => simp [h, decodeF_eq_none]
  case h_17 => -- four bits hold no other number
    have hlt := (opField w).isLt
    simp_all
    omega
  all_goals simp [h]

end Sys2Proof
end

section
/-! PROOFS. Which pieces of state and which registers each instruction can write, said once (R24, R26 to R36), with the
frames of the updates that earlier sections do not have. -/

namespace Sys2Proof.Claims

open Sys2Proof.Machine

/-! ## The updates -/

theorem KeptBut.mono {s t : State} {ps qs : List Part} (h : KeptBut s t ps) (hsub : ps ⊆ qs) : KeptBut s t qs :=
  fun p hp => h p fun hmem => hp (hsub hmem)

theorem keptBut_advance (s : State) : KeptBut s s.advance [.pc] := keptBut_setPc s _

theorem keptBut_draw (s : State) : KeptBut s s.draw.2 [.draws] := by
  intro p hp
  have hself : Kept s s p := Kept.refl s p
  cases p with
  | draws => simp at hp
  | _ => exact hself

theorem keptBut_setDt (s : State) (b : Byte) : KeptBut s (s.setDt b) [.dt] := by
  intro p hp
  have hself : Kept s s p := Kept.refl s p
  cases p with
  | dt => simp at hp
  | _ => exact hself

theorem keptBut_setSt (s : State) (b : Byte) : KeptBut s (s.setSt b) [.st] := by
  intro p hp
  have hself : Kept s s p := Kept.refl s p
  cases p with
  | st => simp at hp
  | _ => exact hself

theorem keptBut_setKey (s : State) (k : Fin 16) (p : Bool) : KeptBut s (s.setKey k p) [.keys] := by
  intro q hq
  have hself : Kept s s q := Kept.refl s q
  cases q with
  | keys => simp at hq
  | _ => exact hself

/-- R25: VF is a register, so the write of a flag is a write of `v`. -/
theorem keptBut_writeFlag (s : State) (f : Bool) : KeptBut s (s.writeFlag f) [.v] := keptBut_writeV s VF _

theorem keptBut_writeV_writeFlag (s : State) (x : Reg) (b : Byte) (f : Bool) :
    KeptBut s ((s.writeV x b).writeFlag f) [.v] :=
  ((keptBut_writeV s x b).trans (keptBut_writeFlag _ f)).mono (by simp)

theorem regsKeptBut_writeFlag (s : State) (f : Bool) : RegsKeptBut s (s.writeFlag f) [VF] := regsKeptBut_writeV s VF _

theorem regsKeptBut_writeV_writeFlag (s : State) (x : Reg) (b : Byte) (f : Bool) :
    RegsKeptBut s ((s.writeV x b).writeFlag f) [x, VF] := by
  intro r hr
  obtain ⟨hx, hVF⟩ : r ≠ x ∧ r ≠ VF := by simpa using hr
  rw [State.readV_writeFlag, if_neg hVF, State.readV_writeV, if_neg hx]

/-! ## The instructions -/

/-- The pieces of state that an instruction can write when it executes. -/
def writtenParts : Instr → List Part
  | .cls => [.fb]
  | .ret => [.sp, .pc]
  | .call _ => [.stack, .sp, .pc]
  | .jp _ | .jpV0 _ | .seImm _ _ | .sneImm _ _ | .seReg _ _ | .sneReg _ _ | .skp _ | .sknp _ => [.pc]
  | .ldImm _ _ | .addImm _ _ | .ldReg _ _ | .orReg _ _ | .andReg _ _ | .xorReg _ _ | .ldVxDt _ | .ldRegs _ => [.v]
  | .addReg _ _ | .sub _ _ | .shr _ _ | .subn _ _ | .shl _ _ => [.v]
  | .rnd _ _ => [.draws, .v]
  | .drw _ _ _ => [.fb, .v]
  | .ldVxK _ => [.v, .pc]
  | .ldDtVx _ => [.dt]
  | .ldStVx _ => [.st]
  | .ldI _ | .addI _ | .ldF _ => [.i]
  | .ldB _ | .stRegs _ => [.mem]

/-- The registers that an instruction can write when it executes. -/
def writtenRegs : Instr → List Reg
  | .ldImm x _ | .addImm x _ | .ldReg x _ | .orReg x _ | .andReg x _ | .xorReg x _ | .rnd x _ | .ldVxDt x
  | .ldVxK x => [x]
  | .addReg x _ | .sub x _ | .shr x _ | .subn x _ | .shl x _ => [x, VF]
  | .drw _ _ _ => [VF]
  | .ldRegs x => (List.finRange 16).filter (· ≤ x)
  | _ => []

end Sys2Proof.Claims

namespace Sys2Proof.Machine

open Sys2Proof.Claims

variable {s t : State} {i : Instr}

/-- A completed instruction writes none but its written pieces of state. -/
theorem Effect.keptBut (h : Effect s i t) : KeptBut s t (writtenParts i) := by
  cases h with
  | cls => exact keptBut_setFb s _
  | ret h => exact keptBut_popped s h
  | call nnn h => exact (keptBut_pushed s s.pc h).trans (keptBut_setPc _ _)
  | jp | jpV0 => exact keptBut_setPc s _
  | seImm | sneImm | seReg | sneReg | skp | sknp => exact keptBut_skipIf s _
  | ldImm | addImm | ldReg | orReg | andReg | xorReg | ldVxDt => exact keptBut_writeV s _ _
  | addReg | sub | shr | subn | shl => exact keptBut_writeV_writeFlag s _ _ _
  | rnd => exact (keptBut_draw s).trans (keptBut_writeV _ _ _)
  | drw => exact (keptBut_setFb s _).trans (keptBut_writeFlag _ _)
  | keyFound => exact (keptBut_writeV s _ _).mono (by simp [writtenParts])
  | keyAwaited => exact (keptBut_setPc s _).mono (by simp [writtenParts])
  | ldDtVx => exact keptBut_setDt s _
  | ldStVx => exact keptBut_setSt s _
  | ldI | addI | ldF => exact keptBut_setI s _
  | ldB | stRegs => exact keptBut_setMem s _
  | ldRegs => exact keptBut_loadRegs s _ _

/-- A completed instruction writes none but its written registers. -/
theorem Effect.regsKeptBut (h : Effect s i t) : RegsKeptBut s t (writtenRegs i) := by
  cases h with
  | ldImm | addImm | ldReg | orReg | andReg | xorReg | ldVxDt | keyFound => exact regsKeptBut_writeV s _ _
  | rnd => exact regsKeptBut_writeV s.draw.2 _ _
  | addReg | sub | shr | subn | shl => exact regsKeptBut_writeV_writeFlag s _ _ _
  | drw => exact regsKeptBut_writeFlag (s.setFb _) _
  | ldRegs x =>
    intro r hr
    have hgt : x.val < r.val := by simpa [writtenRegs] using hr
    exact s.readV_loadRegs_of_gt _ hgt
  | seImm | sneImm | seReg | sneReg | skp | sknp => exact fun r _ => s.readV_skipIf _ r
  | _ => exact fun _ _ => rfl

end Sys2Proof.Machine
end

section
/-! PROOFS. The cycle of a fetched instruction (R100): what it runs, and what it keeps. -/

namespace Sys2Proof.Machine

open Sys2Proof.Claims

section
variable {s t u : State} {i j : Instr}

/-- R58, R83: the instruction fetched is the decode of the word fetched. -/
theorem fetches_iff : Fetches s i ↔ ∃ w, s.fetch = some w ∧ decode w = some i := by
  simp only [Fetches, fetch_eq_some_iff_wordAtPc, and_assoc, exists_and_left]

/-- A state fetches at most one instruction. -/
theorem fetches_unique (hi : Fetches s i) (hj : Fetches s j) : i = j := by
  obtain ⟨w, hw, hdi⟩ := fetches_iff.mp hi
  obtain ⟨w', hw', hdj⟩ := fetches_iff.mp hj
  obtain rfl : w = w' := Option.some.inj (hw.symm.trans hw')
  exact Option.some.inj (hdi.symm.trans hdj)

/-- R100: the cycle of a fetched instruction executes it at pc past its word, and ticks. -/
theorem step_of_fetches (hf : Fetches s i) : step s = finishCycle (exec i s.advance) := by
  obtain ⟨w, hw, hd⟩ := fetches_iff.mp hf
  exact step_of_decode hw hd

/-- R100: a cycle completes when the effect of its instruction does. -/
theorem step_of_effect (hf : Fetches s i) (h : Effect s.advance i u) : step s = .next u.tick := by
  rw [step_of_fetches hf, exec_of_effect h, finishCycle]

/-- R100: a completed cycle is the effect of its instruction, and the tick. -/
theorem effect_of_step (hf : Fetches s i) (h : step s = .next t) : ∃ u, Effect s.advance i u ∧ t = u.tick := by
  obtain ⟨j, u, hj, hexec, rfl⟩ := step_next_fetches h
  obtain rfl : i = j := fetches_unique hf hj
  exact ⟨u, effect_of_exec hexec, rfl⟩

/-- A completed cycle writes none but pc, the timers, and what its instruction writes. -/
theorem keptBut_of_step (hf : Fetches s i) (h : step s = .next t) :
    KeptBut s t ([.pc] ++ writtenParts i ++ [.dt, .st]) := by
  obtain ⟨u, heffect, rfl⟩ := effect_of_step hf h
  exact ((keptBut_advance s).trans heffect.keptBut).trans (keptBut_tick u)

/-- A completed cycle writes none but its instruction's registers. -/
theorem regsKeptBut_of_step (hf : Fetches s i) (h : step s = .next t) : RegsKeptBut s t (writtenRegs i) := by
  obtain ⟨u, heffect, rfl⟩ := effect_of_step hf h
  exact heffect.regsKeptBut

/-! ## The frames of a cycle, piece by piece -/

/-- R32, R33: no instruction but a call writes a stack entry. -/
theorem stack_mem_writtenParts : Part.stack ∈ writtenParts i ↔ ∃ nnn, i = .call nnn := by
  cases i <;> simp [writtenParts]

/-- R27: no instruction but a call and a return writes sp. -/
theorem sp_mem_writtenParts : Part.sp ∈ writtenParts i ↔ (∃ nnn, i = .call nnn) ∨ i = .ret := by
  cases i <;> simp [writtenParts]

/-- R26: the writers of I. -/
theorem i_mem_writtenParts : Part.i ∈ writtenParts i ↔ (∃ nnn, i = .ldI nnn) ∨ ∃ x, i = .addI x ∨ i = .ldF x := by
  cases i <;> simp [writtenParts]

/-- R34: the writers of the framebuffer. -/
theorem fb_mem_writtenParts : Part.fb ∈ writtenParts i ↔ i = .cls ∨ ∃ x y n, i = .drw x y n := by
  cases i <;> simp [writtenParts]

/-- R36, R173: no instruction writes a key. -/
theorem keys_not_mem_writtenParts : Part.keys ∉ writtenParts i := by
  cases i <;> simp [writtenParts]

end

/-- Settles O30: of the instructions a call alone writes the stack, and a call or a return alone sp. -/
theorem onlyCallAndReturnTouchStack : Obligations.OnlyCallAndReturnTouchStack := by
  intro s t i hf h
  have hkept := keptBut_of_step hf h
  refine ⟨fun hcall => hkept .stack ?stack, fun hcall hret => hkept .sp ?sp⟩
  case stack => simpa [stack_mem_writtenParts] using hcall
  case sp => simpa [sp_mem_writtenParts] using And.intro hcall hret

/-- Settles O33: an instruction that is none of the three does not write I. -/
theorem onlyThreeInstructionsWriteIndex : Obligations.OnlyThreeInstructionsWriteIndex := by
  intro s t i hf h hne
  by_contra hother
  exact hne (keptBut_of_step hf h .i (by simpa [i_mem_writtenParts] using hother))

/-- Settles O43: an instruction that is neither of the two does not write the framebuffer. -/
theorem onlyClearAndDrawChangeFramebuffer : Obligations.OnlyClearAndDrawChangeFramebuffer := by
  intro s t i hf h hcls hdrw
  exact keptBut_of_step hf h .fb (by simpa [fb_mem_writtenParts] using And.intro hcls hdrw)

/-- Settles O49: no instruction writes the keys. -/
theorem noCycleChangesKeys : Obligations.NoCycleChangesKeys := by
  intro s t h
  obtain ⟨i, -, hf, -, -⟩ := step_next_fetches h
  exact Vector.ext (keptBut_of_step hf h .keys (by simp [keys_not_mem_writtenParts]))

/-- Settles O22: VF is among the written registers of none but the listed instructions. -/
theorem flagChangesOnlyAsListed : Obligations.FlagChangesOnlyAsListed := by
  intro s t i hf h hne
  have hmem : VF ∈ writtenRegs i := by
    by_contra hout
    exact hne (regsKeptBut_of_step hf h VF hout)
  cases i with
  | ldRegs x =>
    have hle : VF ≤ x := by simpa [writtenRegs] using hmem
    have hx : x = VF := le_antisymm (Fin.le_last x) hle
    simp [hx]
  | _ => simp_all [writtenRegs]

end Sys2Proof.Machine
end

section
/-! PROOFS. What a completed instruction does to memory, to I, to pc and to the stack, and from that the invariant of
R39: at reset, over a cycle, and over every operation of the host. -/

namespace Sys2Proof.Machine

open Sys2Proof.Claims

/-! ## Memory -/

/-- R39: memory is canonical and its font reads as FONT. -/
def Memory.Sound (m : Memory) : Prop := m.wf ∧ ∀ k (h : k < 80), m.read (0x050 + k) = m.font[k]

theorem Memory.sound_nil (font : Vector Byte 80) : Memory.Sound ⟨font, []⟩ :=
  ⟨Memory.wf_nil font, Memory.unlisted_font ⟨font, []⟩⟩

/-- R53: a run of bytes inside memory that misses the font leaves memory sound. -/
theorem Memory.Sound.writeBytes {m : Memory} (hm : m.Sound) {a : Nat} {bytes : List Byte}
    (hin : a + bytes.length ≤ 4096) (hoff : 0x09F < a ∨ a + bytes.length ≤ 0x050) :
    (m.writeBytes a bytes).Sound := by
  obtain ⟨hwf, hfont⟩ := hm
  refine ⟨m.writeBytes_wf bytes a hin hwf, fun k hk => ?_⟩
  have hout : m.read (0x050 + k) = (m.writeBytes a bytes).read (0x050 + k) :=
    (m.read_writeBytes_outside bytes a _ (by omega)).symm
  rw [← hout, hfont k hk]
  simp

section
variable {s t : State} {i : Instr}

/-- R60: a completed instruction leaves memory as it is, or writes a run of bytes at I, inside memory and off the font;
the run is that of `Fx33` or of `Fx55`. -/
theorem Effect.mem_cases (h : Effect s i t) :
    t.mem = s.mem ∨ ∃ bytes, t.mem = s.mem.writeBytes s.i.toNat bytes ∧ s.i.toNat + bytes.length ≤ 4096 ∧
      (0x09F < s.i.toNat ∨ s.i.toNat + bytes.length ≤ 0x050) ∧
      ((∃ x, i = .ldB x ∧ bytes.length = 3) ∨ ∃ x, i = .stRegs x ∧ bytes.length = x.val + 1) := by
  cases h with
  | ldB x hm hf => exact .inr ⟨_, rfl, hm, hf, .inl ⟨x, rfl, rfl⟩⟩
  | stRegs x hm hf =>
    have hlen := s.regsUpTo_length x
    exact .inr ⟨_, rfl, by rwa [hlen], by rwa [hlen], .inr ⟨x, rfl, hlen⟩⟩
  | seImm | sneImm | seReg | sneReg | skp | sknp => exact .inl (s.skipIf_mem _)
  | _ => exact .inl rfl

/-- R53, R60: so every completed instruction keeps memory sound. -/
theorem Effect.mem_sound (h : Effect s i t) (hs : s.mem.Sound) : t.mem.Sound := by
  rcases h.mem_cases with hmem | ⟨bytes, hmem, hin, hoff, -⟩ <;> rw [hmem]
  · exact hs
  · exact hs.writeBytes hin hoff

/-! ## I, pc and the stack -/

/-- R26: every write of I keeps it below 4096. -/
theorem Effect.i_le (h : Effect s i t) (hs : s.i.toNat ≤ 0x0FFF) : t.i.toNat ≤ 0x0FFF := by
  cases h with
  | ldI nnn => rw [State.setI_i, zextAddr_toNat]; omega
  | addI x => rw [State.setI_i, wrapIndex_toNat]; omega
  | ldF x => rw [State.setI_i, glyphAddr_toNat]; omega
  | seImm | sneImm | seReg | sneReg | skp | sknp => rwa [State.skipIf_i]
  | _ => exact hs

/-- R39: every live entry of the stack is at most 0x1000. -/
def State.StackBounded (s : State) : Prop := ∀ k (h : k < 16), k < s.sp.val → s.stack[k].toNat ≤ 0x1000

/-- A skip adds at most 2. -/
theorem State.skipIf_pc_le (s : State) (c : Bool) (hpc : s.pc.toNat ≤ 0x1000) : (s.skipIf c).pc.toNat ≤ 0x1002 := by
  have hadd : (s.pc + 2).toNat ≤ s.pc.toNat + 2 := by bv_omega
  rw [State.skipIf_pc]
  split <;> omega

/-- R29: from an advanced pc of at most 0x1000 a completed instruction leaves pc at most 0x10FE, the highest target of
`Bnnn`. That pc has been advanced keeps the wait of `Fx0A` from going below address 0. -/
theorem Effect.pc_le (h : Effect s i t) (hadvanced : 2 ≤ s.pc.toNat) (hpc : s.pc.toNat ≤ 0x1000)
    (hstack : s.StackBounded) : t.pc.toNat ≤ 0x10FE := by
  cases h with
  | ret h => exact (hstack (s.sp.val - 1) (by omega) (by omega)).trans (by decide)
  | jp nnn | call nnn => rw [State.setPc_pc, zextAddr_toNat]; omega
  | jpV0 nnn => rw [State.setPc_pc, indexedTarget_toNat]; omega
  | seImm | sneImm | seReg | sneReg | skp | sknp => exact (s.skipIf_pc_le _ hpc).trans (by decide)
  | keyAwaited => rw [State.setPc_pc]; bv_omega
  | _ => exact hpc.trans (by decide)

/-- R32: a call pushes pc, a return drops an entry, and nothing else touches the stack. -/
theorem Effect.stackBounded (h : Effect s i t) (hpc : s.pc.toNat ≤ 0x1000) (hs : s.StackBounded) : t.StackBounded := by
  cases h with
  | call nnn h =>
    intro k hk hlt
    by_cases htop : k = s.sp.val
    · subst htop; exact (congrArg BitVec.toNat (s.pushed_stack_top s.pc h)).trans_le hpc
    · have hbelow : k < s.sp.val := by have : k < s.sp.val + 1 := hlt; omega
      exact (congrArg BitVec.toNat (s.pushed_stack_of_ne s.pc h k hk htop)).trans_le (hs k hk hbelow)
  | ret h => exact fun k hk hlt => hs k hk (lt_of_lt_of_le hlt (Nat.sub_le _ _))
  | seImm | sneImm | seReg | sneReg | skp | sknp =>
    intro k hk hlt
    rw [State.skipIf_sp] at hlt
    simpa using hs k hk hlt
  | _ => exact hs

end

/-! ## The bytes that a cycle changes -/

/-- Settles O39: the bytes that changed lie in the run that the instruction wrote. -/
theorem onlyStoresChangeMemory : Obligations.OnlyStoresChangeMemory := by
  intro s t i hf h
  obtain ⟨u, heffect, rfl⟩ := effect_of_step hf h
  rcases heffect.mem_cases with hmem | ⟨bytes, hmem, hin, hoff, hwho⟩
  · exact ⟨congrArg Memory.font hmem, fun a ha => absurd (congrArg (Memory.read · a) hmem) ha⟩
  · refine ⟨(congrArg Memory.font hmem).trans (Memory.writeBytes_font ..), fun a ha => ?_⟩
    rw [State.advance_i] at hmem hin hoff
    have hrange : s.i.toNat ≤ a ∧ a < s.i.toNat + bytes.length := by
      by_contra hout
      exact ha ((congrArg (Memory.read · a) hmem).trans (Memory.read_writeBytes_outside _ _ _ _ (by omega)))
    refine ⟨by omega, by omega, ?_⟩
    rcases hwho with ⟨x, rfl, hlen⟩ | ⟨x, rfl, hlen⟩
    · exact .inl ⟨x, rfl, hrange.1, by omega⟩
    · exact .inr ⟨x, rfl, hrange.1, by omega⟩

/-! ## Reset of a running core -/

/-- Settles O51: a reset writes every piece of state but the count of draws. -/
theorem resetOfRunningCore : Obligations.ResetOfRunningCore := by
  refine fun s => ⟨rfl, fun p hp => ?kept, fun a ha => Memory.unlisted_other _ a (by omega)⟩
  case kept =>
    have hself : Kept (State.resetWith s.mem.font) (State.resetWith s.mem.font) p := Kept.refl _ p
    cases p with
    | draws => simp at hp
    | _ => exact hself

/-! ## The invariant -/

theorem State.inv_iff (s : State) : s.Inv ↔
    s.mem.Sound ∧ s.i.toNat ≤ 0x0FFF ∧ s.pc.toNat ≤ 0x10FE ∧ s.StackBounded :=
  ⟨fun h => ⟨⟨h.memWf, h.fontKept⟩, h.iRange, h.pcRange, h.stackRange⟩,
   fun ⟨⟨hwf, hfont⟩, hi, hpc, hstack⟩ => ⟨hwf, hfont, hi, hpc, hstack⟩⟩

/-- Settles O54: nothing is listed in memory, and no entry of the stack is live. -/
theorem resetMeetsInvariant : Obligations.ResetMeetsInvariant := fun font =>
  (State.inv_iff _).mpr ⟨Memory.sound_nil font, by simp, by simp, fun _ _ hlt => absurd hlt (Nat.not_lt_zero _)⟩

/-- Settles O55: a completed cycle was fetched at most at 0x0FFE, so its instruction executes with pc from 2 to 0x1000,
and its effect keeps each part of the invariant. -/
theorem stepKeepsInvariant : Obligations.StepKeepsInvariant := by
  intro s t hs h
  obtain ⟨hmem, hi, -, hstack⟩ := s.inv_iff.mp hs
  obtain ⟨i, u, ⟨hfetch, -⟩, hexec, rfl⟩ := step_next_fetches h
  have heffect : Effect s.advance i u := effect_of_exec hexec
  have hlow : 2 ≤ s.advance.pc.toNat := by rw [State.advance_pc]; bv_omega
  have hhigh : s.advance.pc.toNat ≤ 0x1000 := by rw [State.advance_pc]; bv_omega
  exact (State.inv_iff _).mpr
    ⟨heffect.mem_sound hmem, heffect.i_le hi, heffect.pc_le hlow hhigh hstack, heffect.stackBounded hhigh hstack⟩

/-- R216: an operation of the host that completes keeps the invariant. -/
theorem inv_of_hostOp {s t : State} {op : HostOp} (hs : s.Inv) (h : hostOp s op = .next t) : t.Inv := by
  obtain ⟨hmem, hi, hpc, hstack⟩ := s.inv_iff.mp hs
  cases op with
  | reset =>
    obtain rfl : s.resetAgain = t := by injection h
    obtain ⟨hmem, hi, hpc, hstack⟩ := (State.inv_iff _).mp (resetMeetsInvariant s.mem.font)
    exact (State.inv_iff _).mpr ⟨hmem, hi, hpc, hstack⟩
  | load bytes =>
    by_cases hfits : bytes.length ≤ 3584
    · obtain rfl : s.setMem (s.mem.writeBytes 0x200 bytes) = t := by injection (s.load_of_fits hfits).symm.trans h
      have hloaded : (s.mem.writeBytes 0x200 bytes).Sound := hmem.writeBytes (by omega) (by omega)
      exact (State.inv_iff _).mpr ⟨hloaded, hi, hpc, hstack⟩
    · exact nomatch (s.load_of_too_large (by omega)).symm.trans h
  | setKey k p =>
    obtain rfl : s.setKey k p = t := by injection h
    exact (State.inv_iff _).mpr ⟨hmem, hi, hpc, hstack⟩
  | cycle => exact stepKeepsInvariant s t hs h

/-- Settles O56: the invariant holds at reset, an operation that completes keeps it, and one that faults changes
nothing. -/
theorem reachableStatesMeetInvariant : Obligations.ReachableStatesMeetInvariant := by
  intro s h
  induction h with
  | reset font => exact resetMeetsInvariant font
  | op s op _ ih =>
    unfold afterHostOp
    split
    · exact inv_of_hostOp ih ‹_›
    · exact ih
    · exact ih

end Sys2Proof.Machine
end

section
/-! PROOFS. Arithmetic with a flag, shifts, the free byte, and the moves between registers, I and the timers (R111, R126
to R131, R141, R142, R161 to R163), through the effect and the frame of each. -/

namespace Sys2Proof.Machine

open Sys2Proof.Claims

/-! ## A result and a flag (R25, R133) -/

/-- R126 to R130: an instruction whose effect is the write of a result and then of a flag completes; the flag, written
last, is what VF holds. -/
theorem exec_of_effect_writeFlag {i : Instr} {s : State} {x : Reg} {b : Byte} {f : Bool}
    (h : Effect s i ((s.writeV x b).writeFlag f)) : ∃ t, exec i s = .next t ∧
      (x ≠ VF → t.readV x = b) ∧ t.readV VF = flagByte f ∧ RegsKeptBut s t [x, VF] ∧ KeptBut s t [.v] := by
  refine ⟨_, exec_of_effect h, fun hx => ?_, ?_, regsKeptBut_writeV_writeFlag s x b f, keptBut_writeV_writeFlag s x b f⟩
  · rw [State.readV_writeFlag, if_neg hx, State.readV_writeV, if_pos rfl]
  · rw [State.readV_writeFlag, if_pos rfl]

theorem flagByte_decide (p : Prop) [Decidable p] : flagByte (decide p) = if p then 1 else 0 := by
  by_cases h : p <;> simp [flagByte, h]

theorem flagByte_toNat (f : Bool) : (flagByte f).toNat = f.toNat := by cases f <;> rfl

/-- R127, R129: subtraction of bytes is that of numbers modulo 256. -/
theorem sub_toNat_emod (a b : Byte) : ((a - b).toNat : Int) = ((a.toNat : Int) - b.toNat) % 256 := by
  have ha := a.isLt
  have hb := b.isLt
  rw [BitVec.toNat_sub]
  omega

/-- Settles O17: the sum of two bytes is that of the numbers modulo 256. -/
theorem addWithCarry : Obligations.AddWithCarry := by
  intro x y s
  obtain ⟨t, hexec, hx, hVF, hframe⟩ := exec_of_effect_writeFlag (.addReg x y : Effect s _ _)
  exact ⟨t, hexec, fun hne => by rw [hx hne, BitVec.toNat_add], hVF.trans (flagByte_decide _), hframe⟩

/-- Settles O18: the difference of two bytes is that of the numbers modulo 256. -/
theorem subtractWithNoBorrowFlag : Obligations.SubtractWithNoBorrowFlag := by
  intro x y s
  obtain ⟨t, hexec, hx, hVF, hframe⟩ := exec_of_effect_writeFlag (.sub x y : Effect s _ _)
  exact ⟨t, hexec, fun hne => by rw [hx hne, sub_toNat_emod], hVF.trans (flagByte_decide _), hframe⟩

/-- Settles O19: as O18, the operands the other way round. -/
theorem reverseSubtractWithNoBorrowFlag : Obligations.ReverseSubtractWithNoBorrowFlag := by
  intro x y s
  obtain ⟨t, hexec, hx, hVF, hframe⟩ := exec_of_effect_writeFlag (.subn x y : Effect s _ _)
  exact ⟨t, hexec, fun hne => by rw [hx hne, sub_toNat_emod], hVF.trans (flagByte_decide _), hframe⟩

/-! ## Shifts -/

/-- R128: the bit that a right shift moves out is the remainder. -/
theorem lowBitFlag_toNat (a : Byte) : (lowBitFlag a).toNat = a.toNat % 2 := by
  have hbit : (lowBitFlag a).toNat = a.toNat / 2 ^ 0 % 2 := Nat.toNat_testBit a.toNat 0
  omega

/-- R130: the bit that a left shift moves out is the quotient. -/
theorem highBitFlag_toNat (a : Byte) : (highBitFlag a).toNat = a.toNat / 128 := by
  have hbit : (highBitFlag a).toNat = a.toNat / 2 ^ 7 % 2 := Nat.toNat_testBit a.toNat 7
  have ha := a.isLt
  omega

/-- Settles O20: the shifts by one place halve and double; neither meaning looks at Y. -/
theorem shiftsByOnePlace : Obligations.ShiftsByOnePlace := by
  refine fun x y s => ⟨?shr, ?shl⟩
  case shr =>
    obtain ⟨t, hexec, hx, hVF, hregs, hkept⟩ := exec_of_effect_writeFlag (.shr x y : Effect s _ _)
    have hhalf : x ≠ VF → (t.readV x).toNat = (s.readV x).toNat / 2 := fun hne => by
      rw [hx hne, BitVec.toNat_ushiftRight, Nat.shiftRight_one]
    exact ⟨t, hexec, hhalf, by rw [hVF, flagByte_toNat, lowBitFlag_toNat], hregs, hkept, fun _ => hexec⟩
  case shl =>
    obtain ⟨t, hexec, hx, hVF, hregs, hkept⟩ := exec_of_effect_writeFlag (.shl x y : Effect s _ _)
    have hdouble : x ≠ VF → (t.readV x).toNat = (s.readV x).toNat * 2 % 256 := fun hne => by
      rw [hx hne, BitVec.toNat_shiftLeft, Nat.shiftLeft_eq, pow_one]
    exact ⟨t, hexec, hdouble, by rw [hVF, flagByte_toNat, highBitFlag_toNat], hregs, hkept, fun _ => hexec⟩

/-! ## The free byte -/

/-- Settles O21: the effect takes a draw and writes its byte under the mask. -/
theorem randomByteIsMasked : Obligations.RandomByteIsMasked := by
  intro x nn s
  have heffect : Effect s (.rnd x nn) (s.draw.2.writeV x (s.draw.1 &&& nn)) := .rnd x nn
  have hx : (s.draw.2.writeV x (s.draw.1 &&& nn)).readV x = (Config.rnd s.draws &&& nn) :=
    (State.readV_writeV ..).trans (if_pos rfl)
  have hzero : ∀ k, nn.getLsbD k = false → (Config.rnd s.draws &&& nn).getLsbD k = false := fun k hk => by
    rw [BitVec.getLsbD_and, hk, Bool.and_false]
  exact ⟨_, exec_of_effect heffect, hx, fun k hk => by rw [hx, hzero k hk], rfl, heffect.regsKeptBut,
    heffect.keptBut.mono (by simp [writtenParts])⟩

/-! ## One write, of pc, of I or of a timer -/

/-- Settles O24: the effect is the write of pc; the sum has room in 16 bits. -/
theorem indexedJumpAddsV0 : Obligations.IndexedJumpAddsV0 := fun nnn s =>
  ⟨_, exec_of_effect (.jpV0 nnn), indexedTarget_toNat nnn _, keptBut_setPc s _⟩

/-- Settles O32: each effect is the write of I. -/
theorem indexAddAndGlyphAddress : Obligations.IndexAddAndGlyphAddress := fun x s =>
  ⟨⟨_, exec_of_effect (.addI x), wrapIndex_toNat s.i _, keptBut_setI s _⟩,
   ⟨_, exec_of_effect (.ldF x), glyphAddr_toNat _, keptBut_setI s _⟩⟩

/-- Settles O44: each effect is the write of a register or of a timer. -/
theorem timerMoves : Obligations.TimerMoves := fun x s =>
  ⟨exec_of_effect_writeV (.ldVxDt x), ⟨_, exec_of_effect (.ldDtVx x), rfl, keptBut_setDt s _⟩,
   ⟨_, exec_of_effect (.ldStVx x), rfl, keptBut_setSt s _⟩⟩

/-- Settles O45: the cycle ends with the tick of what each of the three has just written. -/
theorem timerMovesTickInSameCycle : Obligations.TimerMovesTickInSameCycle := by
  refine fun x s => ⟨fun hf => ?ldVxDt, fun hf => ?ldDtVx, fun hf => ?ldStVx⟩
  case ldVxDt =>
    exact ⟨_, step_of_effect hf (.ldVxDt x), (State.readV_writeV ..).trans (if_pos rfl), decay_toNat s.dt⟩
  case ldDtVx => exact ⟨_, step_of_effect hf (.ldDtVx x), decay_toNat (s.readV x), decay_toNat s.st⟩
  case ldStVx => exact ⟨_, step_of_effect hf (.ldStVx x), decay_toNat (s.readV x), decay_toNat s.dt⟩

end Sys2Proof.Machine
end

section
/-! PROOFS. The keypad (R170 to R173, R216). -/

namespace Sys2Proof.Machine

open Sys2Proof.Claims

/-- R170, R171: with no key of that index both skips fault. -/
theorem exec_skp_of_no_key {x : Reg} {s : State} (h : 15 < (s.readV x).toNat) :
    exec (.skp x) s = .fault (.outOfBounds .keypad) := by
  simp only [exec, execSkp, s.keyAt_of_ge _ h, raise]

theorem exec_sknp_of_no_key {x : Reg} {s : State} (h : 15 < (s.readV x).toNat) :
    exec (.sknp x) s = .fault (.outOfBounds .keypad) := by
  simp only [exec, execSknp, s.keyAt_of_ge _ h, raise]

/-- Settles O46: each of the two is a skip on the state of the key, or on its negation. -/
theorem skipsOnKeys : Obligations.SkipsOnKeys := by
  refine fun x s => ⟨fun h => ⟨?skp, ?sknp⟩, fun h => ⟨exec_skp_of_no_key h, exec_sknp_of_no_key h⟩⟩
  case skp => exact exec_of_effect_skipIf (.skp x h)
  case sknp =>
    obtain ⟨t, hexec, hpc, hframe⟩ := exec_of_effect_skipIf (.sknp x h : Effect s _ _)
    exact ⟨t, hexec, hpc.trans (by cases s.keys[(s.readV x).toNat] <;> rfl), hframe⟩

/-- R172: with no key pressed no first one is found. -/
theorem State.firstPressed_none_of_all_up {s : State} (h : ∀ k (hk : k < 16), s.keys[k] = false) :
    s.firstPressed = none :=
  s.firstPressed_none.mpr fun k => h k.val k.isLt

/-- Settles O47: a key with none below it pressed is the one found, and its number fits in a byte. -/
theorem waitForKey : Obligations.WaitForKey := by
  refine fun x s => ⟨fun k hk hpressed hbelow => ?found, fun hup => ?awaited⟩
  case found =>
    have hfirst : s.firstPressed = some ⟨k, hk⟩ :=
      (s.firstPressed_some ⟨k, hk⟩).mpr ⟨hpressed, fun j hj => hbelow j.val hj⟩
    obtain ⟨t, hexec, hx, hframe⟩ := exec_of_effect_writeV (.keyFound x _ hfirst)
    have hbyte : (t.readV x).toNat = k := by rw [hx]; exact Nat.mod_eq_of_lt (by omega)
    exact ⟨t, hexec, hbyte, hframe⟩
  case awaited =>
    exact ⟨_, exec_of_effect (.keyAwaited x (State.firstPressed_none_of_all_up hup)), rfl, keptBut_setPc s _⟩

/-- R172(b): what a waiting cycle leaves: only the tick, for the step back of pc undoes its advance. -/
theorem step_of_waiting {x : Reg} {s : State} (hf : Fetches s (.ldVxK x)) (hup : ∀ k (hk : k < 16), s.keys[k] = false) :
    step s = .next s.tick := by
  have hback : s.advance.setPc (s.advance.pc - 2) = s := by
    simp [State.advance, State.setPc]
  rw [step_of_effect hf (.keyAwaited x (State.firstPressed_none_of_all_up (s := s.advance) hup)), hback]

/-- Settles O48: the tick leaves pc and memory, and so the fetch, alone. -/
theorem waitingCycleOnlyTicks : Obligations.WaitingCycleOnlyTicks := fun _ s hf hup =>
  ⟨s.tick, step_of_waiting hf hup, decay_toNat s.dt, decay_toNat s.st, keptBut_tick s, hf⟩

/-- Settles O53: a vector with one entry set. -/
theorem setKeyChangesOneKey : Obligations.SetKeyChangesOneKey := fun s k p =>
  ⟨Vector.getElem_set_self k.isLt, fun _ h hne => Vector.getElem_set_ne k.isLt h hne.symm, keptBut_setKey s k p⟩

end Sys2Proof.Machine
end

section
/-! PROOFS. The stores (R143, R144) and the coherence of a store with the next fetch (R65), through the shared store. -/

namespace Sys2Proof.Machine

open Sys2Proof.Claims

/-! ## The shared store -/

section
variable {s : State} {bytes : List Byte} {c : SubCause}

/-- R59: a store past the end of memory faults under the caller's sub-cause. -/
theorem storeAtI_of_past_end (h : 4096 < s.i.toNat + bytes.length) :
    storeAtI s bytes c = .fault (.outOfBounds c) := by
  rcases storeAtI_cases s bytes c with ⟨-, hc⟩ | ⟨hm, -⟩ | ⟨hm, -⟩
  · exact hc
  · omega
  · omega

/-- R53: a store inside memory that meets the font faults. -/
theorem storeAtI_of_font (hm : s.i.toNat + bytes.length ≤ 4096) (hlo : s.i.toNat ≤ 0x09F)
    (hhi : 0x050 < s.i.toNat + bytes.length) : storeAtI s bytes c = .fault (.outOfBounds .romWrite) := by
  rcases storeAtI_cases s bytes c with ⟨h, -⟩ | ⟨-, -, -, hc⟩ | ⟨-, h, -⟩
  · omega
  · exact hc
  · omega

end

/-- R61: a run of bytes written at I of a canonical memory: what it reads as, and what stays. -/
theorem writeBytes_at_i {s : State} (hwf : s.mem.wf) {bytes : List Byte} (hm : s.i.toNat + bytes.length ≤ 4096) :
    (∀ k (hk : k < bytes.length), (s.mem.writeBytes s.i.toNat bytes).read (s.i.toNat + k) = bytes[k]) ∧
    (∀ a, (a < s.i.toNat ∨ s.i.toNat + bytes.length ≤ a) →
      (s.mem.writeBytes s.i.toNat bytes).read a = s.mem.read a) ∧
    (s.mem.writeBytes s.i.toNat bytes).wf ∧ (s.mem.writeBytes s.i.toNat bytes).font = s.mem.font :=
  ⟨fun k hk => s.mem.read_writeBytes_inside bytes _ k hk hm hwf, fun a ha => s.mem.read_writeBytes_outside bytes _ a ha,
    s.mem.writeBytes_wf bytes _ hm hwf, s.mem.writeBytes_font bytes _⟩

/-! ## Decimal digits and registers -/

/-- R143: the three digits, each of which fits in a byte. -/
theorem getElem_bcdDigits_toNat (b : Byte) :
    (bcdDigits b)[0].toNat = b.toNat / 100 ∧ (bcdDigits b)[1].toNat = b.toNat / 10 % 10 ∧
      (bcdDigits b)[2].toNat = b.toNat % 10 := by
  have hb := b.isLt
  have hdigit : ∀ n < 256, (BitVec.ofNat 8 n).toNat = n := fun n hn => Nat.mod_eq_of_lt hn
  exact ⟨hdigit _ (by omega), hdigit _ (by omega), hdigit _ (by omega)⟩

/-- Settles O34: the digits are three bytes stored at I; the shared store makes the two checks. -/
theorem bcdStore : Obligations.BcdStore := by
  intro x s hwf
  have hlen : (bcdDigits (s.readV x)).length = 3 := bcdDigits_length _
  refine ⟨fun hm hoff => ?stored, fun h => ?pastEnd, fun hlo hhi => ?font⟩
  case stored =>
    obtain ⟨hread, hother, hwf', hfont⟩ := writeBytes_at_i hwf (bytes := bcdDigits (s.readV x)) (by omega)
    obtain ⟨hhundreds, htens, hones⟩ := getElem_bcdDigits_toNat (s.readV x)
    exact ⟨_, exec_of_effect (.ldB x (by omega) (by omega)),
      (congrArg BitVec.toNat (hread 0 (by omega))).trans hhundreds,
      (congrArg BitVec.toNat (hread 1 (by omega))).trans htens,
      (congrArg BitVec.toNat (hread 2 (by omega))).trans hones,
      fun a ha => hother a (by omega), hwf', hfont, keptBut_setMem s _⟩
  case pastEnd => exact storeAtI_of_past_end (by omega)
  case font => exact storeAtI_of_font (by omega) hhi (by omega)

/-- Settles O35: the registers V[0] to V[x] are stored at I; the shared store makes the two checks. -/
theorem blockStore : Obligations.BlockStore := by
  intro x s hwf
  have hlen : (s.regsUpTo x).length = x.val + 1 := s.regsUpTo_length x
  refine ⟨fun hm hoff => ?stored, fun h => ?pastEnd, fun hm hlo hhi => ?font⟩
  case stored =>
    have hexec := exec_of_effect (.stRegs x (by omega) (by omega) : Effect s _ _)
    obtain ⟨-, -, hread⟩ := exec_stRegs_next hwf hexec
    obtain ⟨-, hother, hwf', hfont⟩ := writeBytes_at_i hwf (bytes := s.regsUpTo x) (by omega)
    exact ⟨_, hexec, hread, fun a ha => hother a (by omega), hwf', hfont, keptBut_setMem s _⟩
  case pastEnd => exact storeAtI_of_past_end (by omega)
  case font => exact storeAtI_of_font (by omega) hhi (by omega)

/-- Settles O38: the two bytes at pc are V[k] and V[k + 1], as the store left them. -/
theorem storedBytesAreFetched : Obligations.StoredBytesAreFetched := by
  intro x k hk s t i hwf hkx hexec hpc hdecode
  obtain ⟨-, hin, hread⟩ := exec_stRegs_next hwf hexec
  have hhi : t.mem.read t.pc.toNat = s.readV ⟨k, by omega⟩ := by
    rw [hpc]; exact hread ⟨k, by omega⟩ (by show k ≤ x.val; omega)
  have hlo : t.mem.read (t.pc.toNat + 1) = s.readV ⟨k + 1, by omega⟩ := by
    rw [hpc]; exact hread ⟨k + 1, by omega⟩ hkx
  have hword : WordAtPc t (wordOfBytes (s.readV ⟨k, by omega⟩) (s.readV ⟨k + 1, by omega⟩)) := by
    rw [wordAtPc_iff, hhi, hlo]
  exact ⟨by omega, _, hword, hdecode⟩

end Sys2Proof.Machine
end

section
/-! PROOFS. The draw (R151 to R153): its cells are those that `Toggles` names, each toggled once. -/

namespace Sys2Proof.Machine

open Sys2Proof.Claims

/-- The cells that a draw of `n` rows at (`x0`, `y0`) toggles, in the order of the loop of R151. -/
def drawnCells (s : State) (x0 y0 n : Nat) : List (Nat × Nat) := spriteCells x0 y0 (s.mem.readBytes s.i.toNat n)

section
variable (s : State) (x0 y0 n : Nat)

theorem mem_drawnCells (col row : Nat) : (col, row) ∈ drawnCells s x0 y0 n ↔ Toggles s x0 y0 n col row := by
  unfold drawnCells Toggles SpriteBit
  rw [mem_spriteCells, Memory.readBytes_length]
  refine exists_congr fun r => exists_congr fun c => and_congr_right fun hr => ?_
  have hrow : (s.mem.readBytes s.i.toNat n).getD r 0 = s.mem.read (s.i.toNat + r) := by
    rw [List.getD_eq_getElem _ _ (by simpa using hr), Memory.getElem_readBytes]
  rw [hrow, Prod.mk.injEq]

theorem onScreen_iff (col row : Nat) : onScreen (col, row) = true ↔ col ≤ 63 ∧ row ≤ 31 := by
  simp [onScreen]

theorem all_onScreen_drawnCells : (drawnCells s x0 y0 n).all onScreen = true ↔ ¬ OffScreen s x0 y0 n := by
  rw [List.all_eq_true]
  constructor
  · rintro hall ⟨r, c, hr, hc, hbit, hout⟩
    have hmem := (mem_drawnCells s x0 y0 n _ _).mpr ⟨r, c, hr, hc, hbit, rfl, rfl⟩
    have hon := (onScreen_iff _ _).mp (hall _ hmem)
    omega
  · rintro hno ⟨col, row⟩ hmem
    obtain ⟨r, c, hr, hc, hbit, rfl, rfl⟩ := (mem_drawnCells s x0 y0 n _ _).mp hmem
    rw [onScreen_iff]
    by_contra hout
    exact hno ⟨r, c, hr, hc, hbit, by omega⟩

end

/-- R151: the state that a draw over the given cells leaves. -/
def State.drawn (s : State) (cells : List (Nat × Nat)) : State :=
  (s.setFb (toggleCells cells s.fb false).1).writeFlag (toggleCells cells s.fb false).2

section
variable {s : State} {x y : Reg} {n : BitVec 4}

/-- R151, R185: a draw inside memory whose cells lie on the screen completes. -/
theorem exec_drw_of_fits (hm : s.i.toNat + n.toNat ≤ 4096)
    (hon : (drawnCells s (s.readV x).toNat (s.readV y).toNat n.toNat).all onScreen = true) :
    exec (.drw x y n) s = .next (s.drawn (drawnCells s (s.readV x).toNat (s.readV y).toNat n.toNat)) :=
  exec_of_effect (.drw x y n _ hm rfl hon)

/-- R59: a sprite past the end of memory faults. -/
theorem exec_drw_of_past_end (h : 4096 < s.i.toNat + n.toNat) :
    exec (.drw x y n) s = .fault (.outOfBounds .drawMemory) := by
  simp [exec, execDrw, inMemory, Nat.not_le.mpr h, raise]

/-- R152: a set bit off the screen faults. -/
theorem exec_drw_of_off_screen (hm : s.i.toNat + n.toNat ≤ 4096)
    (hoff : OffScreen s (s.readV x).toNat (s.readV y).toNat n.toNat) :
    exec (.drw x y n) s = .fault (.outOfBounds .drawFramebuffer) := by
  have hall : ¬ (drawnCells s (s.readV x).toNat (s.readV y).toNat n.toNat).all onScreen = true := fun h =>
    (all_onScreen_drawnCells ..).mp h hoff
  unfold drawnCells at hall
  simp only [exec, execDrw, inMemory, hm, decide_true, if_true, if_neg hall, raise]

/-- R151: a completed draw. -/
theorem exec_drw_next {t : State} (h : exec (.drw x y n) s = .next t) :
    s.i.toNat + n.toNat ≤ 4096 ∧ (drawnCells s (s.readV x).toNat (s.readV y).toNat n.toNat).all onScreen = true ∧
      t = s.drawn (drawnCells s (s.readV x).toNat (s.readV y).toNat n.toNat) := by
  cases effect_of_exec h with
  | drw _ _ _ cells hm hc hon => subst hc; exact ⟨hm, hon, rfl⟩

end

theorem flagByte_eq_one_or_zero (f : Bool) : flagByte f = 1 ∨ flagByte f = 0 := by cases f <;> decide

theorem State.flag_drawn (s : State) (cells : List (Nat × Nat)) :
    (s.drawn cells).readV VF = flagByte (toggleCells cells s.fb false).2 :=
  (State.readV_writeFlag ..).trans (if_pos rfl)

section
variable (s : State) {cells : List (Nat × Nat)} (hon : cells.all onScreen = true) (hnd : cells.Nodup)
include hon hnd

/-- R34: a draw toggles exactly its cells. -/
theorem State.cell_drawn (col row : Nat) :
    (s.drawn cells).cell col row = (s.cell col row ^^ decide ((col, row) ∈ cells)) :=
  cellOf_toggleCells cells s.fb false (col, row) hon hnd

/-- R151: the flag of a draw is 1 when one of its cells was set before. -/
theorem State.flag_drawn_eq_one :
    (s.drawn cells).readV VF = 1 ↔ ∃ col row, (col, row) ∈ cells ∧ s.cell col row = true := by
  rw [State.flag_drawn, flagByte_eq_one, toggleCells_hit _ _ _ hon hnd, Bool.false_or,
    List.any_eq_true, Prod.exists]
  rfl

/-- R151: the flag of a draw is 0 when none of its cells was set before. -/
theorem State.flag_drawn_eq_zero :
    (s.drawn cells).readV VF = 0 ↔ ∀ col row, (col, row) ∈ cells → s.cell col row = false := by
  rw [State.flag_drawn, flagByte_eq_zero, toggleCells_hit _ _ _ hon hnd, Bool.false_or,
    List.any_eq_false, Prod.forall]
  simp only [Bool.not_eq_true]
  rfl

end

theorem keptBut_drawn (s : State) (cells : List (Nat × Nat)) : KeptBut s (s.drawn cells) [.fb, .v] :=
  (keptBut_setFb s _).trans (keptBut_writeFlag _ _)

theorem regsKeptBut_drawn (s : State) (cells : List (Nat × Nat)) : RegsKeptBut s (s.drawn cells) [VF] :=
  regsKeptBut_writeFlag (s.setFb _) _

theorem nodup_drawnCells (s : State) (x0 y0 n : Nat) : (drawnCells s x0 y0 n).Nodup := spriteCells_nodup _ _ _

/-- Settles O41: `Toggles` names the drawn cells, and `OffScreen` says that one of them lies off the grid. -/
theorem drawTogglesSetBits : Obligations.DrawTogglesSetBits := by
  refine fun x y n s => ⟨fun hm hscreen => ?drawn, exec_drw_of_past_end, exec_drw_of_off_screen⟩
  case drawn =>
    have hon := (all_onScreen_drawnCells ..).mpr hscreen
    have hnd := nodup_drawnCells s (s.readV x).toNat (s.readV y).toNat n.toNat
    have hcell := s.cell_drawn hon hnd
    refine ⟨_, exec_drw_of_fits hm hon, fun col row => ⟨fun htog => ?_, fun htog => ?_⟩, ?flag, ?bit,
      regsKeptBut_drawn s _, keptBut_drawn s _⟩
    · rw [hcell, decide_eq_true ((mem_drawnCells ..).mpr htog), Bool.xor_true]
    · rw [hcell, decide_eq_false fun hmem => htog ((mem_drawnCells ..).mp hmem), Bool.xor_false]
    case flag =>
      rw [s.flag_drawn_eq_one hon hnd]
      refine exists_congr fun col => exists_congr fun row => ?_
      rw [mem_drawnCells]
      refine and_congr_right fun htog => ?_
      rw [hcell, decide_eq_true ((mem_drawnCells ..).mpr htog)]
      simp
    case bit => rw [State.flag_drawn]; exact flagByte_eq_one_or_zero _

/-- R153(f): a draw whose position is not taken from VF leaves position, I and memory alone, and so it completes again,
over the same cells. -/
theorem exec_drw_again {x y : Reg} {n : BitVec 4} {s : State} {cells : List (Nat × Nat)} (hx : x ≠ VF) (hy : y ≠ VF)
    (hm : s.i.toNat + n.toNat ≤ 4096) (hon : cells.all onScreen = true)
    (hcells : drawnCells s (s.readV x).toNat (s.readV y).toNat n.toNat = cells) :
    exec (.drw x y n) (s.drawn cells) = .next ((s.drawn cells).drawn cells) := by
  have hVx : (s.drawn cells).readV x = s.readV x := regsKeptBut_drawn s cells x (by simpa using hx)
  have hVy : (s.drawn cells).readV y = s.readV y := regsKeptBut_drawn s cells y (by simpa using hy)
  have hsame : drawnCells (s.drawn cells) ((s.drawn cells).readV x).toNat ((s.drawn cells).readV y).toNat n.toNat =
      cells := by rw [hVx, hVy]; exact hcells
  have hexec := exec_drw_of_fits (s := s.drawn cells) (x := x) (y := y) (n := n) hm (by rwa [hsame])
  rwa [hsame] at hexec

/-- Settles O42: the second draw toggles the same cells back; where they were clear before the first draw they are set
before the second. -/
theorem drawTwiceRestores : Obligations.DrawTwiceRestores := by
  intro x y n s t hx hy hexec
  obtain ⟨hm, hon, rfl⟩ := exec_drw_next hexec
  have hnd := nodup_drawnCells s (s.readV x).toNat (s.readV y).toNat n.toNat
  simp only [← mem_drawnCells]
  generalize hcells : drawnCells s (s.readV x).toNat (s.readV y).toNat n.toNat = cells at hon hnd ⊢
  refine ⟨_, exec_drw_again hx hy hm hon hcells, fun col row => ?back, fun hclear => ⟨?first, ?second⟩⟩
  case back =>
    rw [State.cell_drawn _ hon hnd, State.cell_drawn _ hon hnd, Bool.xor_assoc, Bool.xor_self, Bool.xor_false]
  case first => exact (s.flag_drawn_eq_zero hon hnd).mpr hclear
  case second =>
    rw [State.flag_drawn_eq_one _ hon hnd]
    refine exists_congr fun col => exists_congr fun row => and_iff_left_of_imp fun hmem => ?_
    rw [State.cell_drawn _ hon hnd, hclear col row hmem, decide_eq_true hmem, Bool.false_xor]

end Sys2Proof.Machine
end

section
/-! PROOFS. How a cycle answers (R100 to R102, R182, R185 to R188) and where it leaves pc (R29). -/

namespace Sys2Proof.Machine

open Sys2Proof.Claims

/-! ## One cycle -/

/-- Settles O7: the word at pc is what the cycle fetches, and the cycle is the execute step at the advanced state, with
the tick if it completes. -/
theorem stepRunsDecodedInstruction : Obligations.StepRunsDecodedInstruction := by
  intro s w i hpc hw hd
  have hstep : step s = finishCycle (exec i s.advance) := step_of_fetches ⟨hpc, w, hw, hd⟩
  refine ⟨fun t ht => hstep.trans ?next, fun f hf => hstep.trans ?fault⟩
  case next => exact congrArg finishCycle ht
  case fault => exact congrArg finishCycle hf

/-- Settles O11: a fault leaves the host's state alone, so the next cycle is the same one. -/
theorem faultChangesNothing : Obligations.FaultChangesNothing := by
  intro s f h
  have hsame : afterHostOp s .cycle = s := afterHostOp_cycle_of_fault h
  exact ⟨hsame, by rw [hsame]; exact h⟩

/-! ## The table of sub-causes -/

/-- An answer that agrees with a table of conditions: it is the fault of the one sub-cause (never Fetch) whose condition
holds, and completes when none holds. -/
inductive AnswersAs (raises : SubCause → Prop) : Result → Prop where
  | next (t : State) (hnone : ∀ c, ¬ raises c) : AnswersAs raises (.next t)
  | fault (c : SubCause) (hc : c ≠ .fetch) (hone : ∀ c', raises c' ↔ c' = c) :
      AnswersAs raises (.fault (.outOfBounds c))

theorem AnswersAs.finishCycle {raises : SubCause → Prop} {r : Result} (h : AnswersAs raises r) :
    AnswersAs raises (finishCycle r) := by
  cases h with
  | next t hnone => exact .next t.tick hnone
  | fault c hc hone => exact .fault c hc hone

/-- R182, R185: the conditions of a store of the bytes from I to I + `k`, the range check first. -/
def StoreRaises (s : State) (k : Nat) (past c : SubCause) : Prop :=
  (c = past ∧ 0x0FFF < s.i.toNat + k) ∨
  (c = .romWrite ∧ s.i.toNat + k ≤ 0x0FFF ∧ ∃ a, 0x050 ≤ a ∧ a ≤ 0x09F ∧ s.i.toNat ≤ a ∧ a ≤ s.i.toNat + k)

/-- R182, R185: the shared store answers as its conditions say. -/
theorem storeAtI_answersAs (s : State) {bytes : List Byte} {k : Nat} {past : SubCause} (hpast : past ≠ .fetch)
    (hlen : bytes.length = k + 1) : AnswersAs (StoreRaises s k past) (storeAtI s bytes past) := by
  rcases storeAtI_cases s bytes past with ⟨hm, h⟩ | ⟨hm, hlo, hhi, h⟩ | ⟨hm, hoff, h⟩ <;> rw [h]
  · refine .fault past hpast fun c => ⟨?_, fun hc => .inl ⟨hc, by omega⟩⟩
    rintro (⟨hc, -⟩ | ⟨-, hin, -⟩)
    · exact hc
    · omega
  · refine .fault .romWrite (by decide) fun c => ⟨?_, fun hc => .inr ⟨hc, by omega, max s.i.toNat 0x050, by omega⟩⟩
    rintro (⟨-, hout⟩ | ⟨hc, -⟩)
    · omega
    · exact hc
  · refine .next _ fun c => ?_
    rintro (⟨-, hout⟩ | ⟨-, -, a, ha⟩) <;> omega

/-- R182, R185: every instruction answers as the table says. -/
theorem exec_answersAs (i : Instr) (s : State) : AnswersAs (Raises i s) (exec i s) := by
  cases i with
  | call nnn =>
    by_cases h : s.sp.val = 16
    · rw [exec_call_of_full nnn h]; exact .fault _ (by decide) fun c => and_iff_left h
    · rw [exec_of_effect (.call nnn (by omega))]; exact .next _ fun c hc => h hc.2
  | ret =>
    by_cases h : s.sp.val = 0
    · rw [exec_ret_of_empty h]; exact .fault _ (by decide) fun c => and_iff_left h
    · rw [exec_of_effect (.ret (by omega))]; exact .next _ fun c hc => h hc.2
  | drw x y n =>
    by_cases hm : s.i.toNat + n.toNat ≤ 4096
    · by_cases hoff : OffScreen s (s.readV x).toNat (s.readV y).toNat n.toNat
      · rw [exec_drw_of_off_screen hm hoff]
        exact .fault _ (by decide) fun c => by simp [Raises, hm, hoff]
      · rw [exec_drw_of_fits hm ((all_onScreen_drawnCells ..).mpr hoff)]
        exact .next _ fun c => by simp [Raises, hm, hoff]
    · rw [exec_drw_of_past_end (Nat.lt_of_not_le hm)]
      exact .fault _ (by decide) fun c => by simp [Raises, hm, Nat.lt_of_not_le hm]
  | ldB x => exact storeAtI_answersAs s (by decide) (bcdDigits_length _)
  | stRegs x => exact storeAtI_answersAs s (by decide) (s.regsUpTo_length x)
  | ldRegs x =>
    by_cases h : 0x0FFF < s.i.toNat + x.val
    · rw [exec_ldRegs_of_past_end h]; exact .fault _ (by decide) fun c => and_iff_left h
    · rw [exec_of_effect (.ldRegs x (by omega))]; exact .next _ fun c hc => h hc.2
  | skp x =>
    by_cases h : 0x0F < (s.readV x).toNat
    · rw [exec_skp_of_no_key h]; exact .fault _ (by decide) fun c => and_iff_left h
    · rw [exec_of_effect (.skp x (by omega))]; exact .next _ fun c hc => h hc.2
  | sknp x =>
    by_cases h : 0x0F < (s.readV x).toNat
    · rw [exec_sknp_of_no_key h]; exact .fault _ (by decide) fun c => and_iff_left h
    · rw [exec_of_effect (.sknp x (by omega))]; exact .next _ fun c hc => h hc.2
  | ldVxK x =>
    cases h : s.firstPressed with
    | none => rw [exec_of_effect (.keyAwaited x h)]; exact .next _ fun _ => id
    | some k => rw [exec_of_effect (.keyFound x k h)]; exact .next _ fun _ => id
  | _ => exact .next _ fun _ => id

/-- R185: the three ways of a cycle, in the order of its steps. -/
theorem step_cases (s : State) :
    (0x0FFE < s.pc.toNat ∧ step s = .fault (.outOfBounds .fetch)) ∨
    (∃ w, s.pc.toNat ≤ 0x0FFE ∧ WordAtPc s w ∧ decode w = none ∧ step s = .fault (.unknownInstruction w)) ∨
    ∃ i, Fetches s i ∧ AnswersAs (Raises i s.advance) (step s) := by
  cases hw : s.fetch with
  | none => exact .inl ⟨s.fetch_none.mp hw, step_of_fetch_none hw⟩
  | some w =>
    obtain ⟨hpc, hword⟩ := (fetch_eq_some_iff_wordAtPc s w).mp hw
    cases hd : decode w with
    | none => exact .inr (.inl ⟨w, hpc, hword, hd, step_of_decode_none hw hd⟩)
    | some i =>
      have hf : Fetches s i := ⟨hpc, w, hword, hd⟩
      rw [step_of_fetches hf]
      exact .inr (.inr ⟨i, hf, (exec_answersAs i s.advance).finishCycle⟩)

/-- R56: there is one word at pc. -/
theorem wordAtPc_unique {s : State} {w w' : Word} (h : WordAtPc s w) (h' : WordAtPc s w') : w' = w :=
  ((wordAtPc_iff s w').mp h').trans ((wordAtPc_iff s w).mp h).symm

/-- Settles O10: in each of the three ways of a cycle its answer is known, and so which clauses it meets. -/
theorem cycleFaultsExactlyAsTabled : Obligations.CycleFaultsExactlyAsTabled := by
  intro s
  have hadvance : ({ s with pc := s.pc + 2 } : State) = s.advance := rfl
  rw [hadvance]
  rcases step_cases s with ⟨hpc, hstep⟩ | ⟨w, hpc, hw, hd, hstep⟩ | ⟨i, hf, hanswer⟩
  · have hno : ∀ i, ¬ Fetches s i := fun i hf => absurd hf.1 (by omega)
    have hlow : ¬ s.pc.toNat ≤ 0x0FFE := by omega
    simp [hstep, hpc, hlow, hno, eq_comm]
  · have hno : ∀ i, ¬ Fetches s i := by
      rintro i ⟨-, w', hw', hd'⟩
      rw [wordAtPc_unique hw hw', hd] at hd'
      cases hd'
    have hunknown : ∀ w', (WordAtPc s w' ∧ decode w' = none) ↔ w = w' := fun w' =>
      ⟨fun h => (wordAtPc_unique hw h.1).symm, fun h => h ▸ ⟨hw, hd⟩⟩
    simp [hstep, hpc, hno, hunknown]
  · have hpc : ¬ 0x0FFE < s.pc.toNat := by have := hf.1; omega
    have hknown : ∀ w', ¬ (WordAtPc s w' ∧ decode w' = none) := by
      obtain ⟨-, w, hw, hd⟩ := hf
      rintro w' ⟨hw', hd'⟩
      rw [wordAtPc_unique hw hw', hd] at hd'
      cases hd'
    have hthe : ∀ p : Instr → Prop, (∃ j, Fetches s j ∧ p j) ↔ p i := fun p =>
      ⟨fun ⟨j, hj, hp⟩ => fetches_unique hj hf ▸ hp, fun hp => ⟨i, hf, hp⟩⟩
    simp only [hthe]
    generalize step s = r at hanswer ⊢
    cases hanswer with
    | next t hnone => simp [hnone, hknown, hpc]
    | fault c hc hone =>
      have hone' : ∀ c', Raises i s.advance c' ↔ c = c' := fun c' => (hone c').trans eq_comm
      simp [hone', hknown, hpc, hc]

/-! ## The program counter -/

/-- R110: pc after the skip of a cycle that started at `s`. -/
theorem skipIf_advance_pc (s : State) (c : Bool) :
    (s.advance.skipIf c).pc = if c then s.pc + 4 else s.pc + 2 := by
  have hfour : s.pc + 2 + 2 = s.pc + 4 := by rw [BitVec.add_assoc]; rfl
  rw [State.skipIf_pc, State.advance_pc, hfour]

/-- Settles O28: the effect of each instruction, read at pc. -/
theorem cycleMovesPcAsTabled : Obligations.CycleMovesPcAsTabled := by
  intro s t i hf h
  obtain ⟨u, heffect, rfl⟩ := effect_of_step hf h
  rw [State.tick_pc]
  cases heffect with
  | jp nnn | call nnn => exact zextAddr_toNat nnn
  | ret hs => exact ⟨hs, rfl⟩
  | jpV0 nnn => exact indexedTarget_toNat nnn _
  | seImm | sneImm | seReg | sneReg => rw [skipIf_advance_pc]; simp [PcAfter]
  | skp x hx => exact ⟨hx, skipIf_advance_pc s _⟩
  | sknp x hx =>
    have hskip := skipIf_advance_pc s (!s.keys[(s.readV x).toNat])
    exact ⟨hx, hskip.trans (by cases s.keys[(s.readV x).toNat] <;> rfl)⟩
  | keyFound x k hk =>
    have hpressed : ∃ k : Fin 16, s.keys[k.val] = true := ⟨k, ((State.firstPressed_some _ _).mp hk).1⟩
    exact (if_pos hpressed).symm
  | keyAwaited x hnone =>
    have hup : ¬ ∃ k : Fin 16, s.keys[k.val] = true := by simpa using (State.firstPressed_none _).mp hnone
    simp [PcAfter, hup]
  | _ => rfl

end Sys2Proof.Machine
end

section
/-! PROOFS. Runs of cycles: the delay timer over a run (R160), and calls with their returns (R112). -/

namespace Sys2Proof.Machine

open Sys2Proof.Claims

/-- Settles O13: each cycle of the run takes one from DT, since none of them is an `Fx15`. -/
theorem delayCountsDownEveryCycle : Obligations.DelayCountsDownEveryCycle := by
  intro s t is hrun hno
  induction hrun with
  | nil s => rfl
  | cons s t u w i is hw hd hstep _ ih =>
    obtain ⟨v, heffect, rfl⟩ := effect_of_step (fetches_iff.mpr ⟨w, hw, hd⟩) hstep
    have hdt : v.dt = s.dt := heffect.dt_eq fun x hx => hno x (by simp [hx])
    have htick : v.tick.dt.toNat = s.dt.toNat - 1 := hdt ▸ decay_toNat v.dt
    rw [ih fun x hx => hno x (List.mem_cons_of_mem _ hx), htick, List.length_cons]
    omega

/-! ## Calls with their returns -/

/-- A run of an instruction and more is its cycle and a run of the rest. -/
theorem executes_cons_iff {s u : State} {i : Instr} {is : List Instr} :
    Executes s (i :: is) u ↔ ∃ t, Fetches s i ∧ step s = .next t ∧ Executes t is u := by
  constructor
  · intro h
    cases h with
    | cons _ t _ w _ _ hw hd hstep hrest => exact ⟨t, fetches_iff.mpr ⟨w, hw, hd⟩, hstep, hrest⟩
  · rintro ⟨t, hf, hstep, hrest⟩
    obtain ⟨w, hw, hd⟩ := fetches_iff.mp hf
    exact .cons s t u w i is hw hd hstep hrest

theorem executes_nil_iff {s t : State} : Executes s [] t ↔ t = s :=
  ⟨fun h => by cases h; rfl, fun h => h ▸ .nil s⟩

/-- A run of two lists is a run of the first and then one of the second. -/
theorem exists_executes_of_append {u : State} {js : List Instr} :
    ∀ {is : List Instr} {s : State}, Executes s (is ++ js) u → ∃ t, Executes s is t ∧ Executes t js u
  | [], s, h => ⟨s, .nil s, h⟩
  | i :: is, s, h => by
    obtain ⟨t, hf, hstep, hrest⟩ := executes_cons_iff.mp h
    obtain ⟨v, hv, hjs⟩ := exists_executes_of_append hrest
    exact ⟨v, executes_cons_iff.mpr ⟨t, hf, hstep, hv⟩, hjs⟩

/-- R112: what a balanced run leaves as it found it: sp, the live entries of the stack, and all but pc, the free entries
and the timers. -/
structure CameBack (s t : State) : Prop where
  sp : t.sp = s.sp
  kept : KeptBut s t [.pc, .stack, .dt, .st]
  live : ∀ k (h : k < 16), k < s.sp.val → t.stack[k] = s.stack[k]

theorem CameBack.refl (s : State) : CameBack s s := ⟨rfl, KeptBut.refl s _, fun _ _ _ => rfl⟩

/-- R103 over a cycle: sp goes up by one, over the address after the call; the entries below stay. -/
theorem call_of_step {s t : State} {nnn : BitVec 12} (hf : Fetches s (.call nnn)) (h : step s = .next t) :
    ∃ hs : s.sp.val < 16, t.sp.val = s.sp.val + 1 ∧ t.stack[s.sp.val] = s.pc + 2 ∧
      ∀ k (hk : k < 16), k < s.sp.val → t.stack[k] = s.stack[k] := by
  obtain ⟨u, heffect, rfl⟩ := effect_of_step hf h
  cases heffect with
  | call _ hs =>
    exact ⟨hs, rfl, s.advance.pushed_stack_top _ hs, fun k hk hlt => s.advance.pushed_stack_of_ne _ hs k hk hlt.ne⟩

/-- R104 over a cycle: sp goes down by one, pc is the entry there, and every entry stays. -/
theorem ret_of_step {s t : State} (hf : Fetches s .ret) (h : step s = .next t) :
    ∃ hs : 0 < s.sp.val, t.sp.val = s.sp.val - 1 ∧ t.pc = s.stack[s.sp.val - 1] ∧ t.stack = s.stack := by
  obtain ⟨u, heffect, rfl⟩ := effect_of_step hf h
  cases heffect with
  | ret hs => exact ⟨hs, rfl, rfl, rfl⟩

/-- R112: a call, a balanced run and a return make a balanced run, which ends after the call. -/
theorem cameBack_of_call_ret {s a b t : State} {nnn : BitVec 12} (hcall : Fetches s (.call nnn))
    (hsa : step s = .next a) (hab : CameBack a b) (hret : Fetches b .ret) (hbt : step b = .next t) :
    CameBack s t ∧ t.pc = s.pc + 2 := by
  obtain ⟨hroom, hasp, hatop, halow⟩ := call_of_step hcall hsa
  obtain ⟨hheld, htsp, htpc, htstack⟩ := ret_of_step hret hbt
  have hbsp : b.sp.val = s.sp.val + 1 := (congrArg Fin.val hab.sp).trans hasp
  have hsp : t.sp = s.sp := Fin.ext (by omega)
  have hothers := ((keptBut_of_step hcall hsa).trans hab.kept).trans (keptBut_of_step hret hbt)
  refine ⟨⟨hsp, fun p hp => ?kept, fun k hk hlt => ?live⟩, ?pc⟩
  case kept =>
    by_cases hps : p = .sp
    · subst hps; exact hsp
    · exact hothers p (by simp_all [writtenParts])
  case live =>
    have hba : b.stack[k] = a.stack[k] := hab.live k hk (by omega)
    simp only [htstack, hba, halow k hk hlt]
  case pc =>
    have hidx : b.sp.val - 1 = s.sp.val := by omega
    have hba : b.stack[s.sp.val] = a.stack[s.sp.val] := hab.live _ hroom (by omega)
    simp only [htpc, hidx, hba, hatop]

/-- R112: nested calls and as many returns are a balanced run; with at least one call it ends after the first. -/
theorem cameBack_of_calls_rets (targets : List (BitVec 12)) : ∀ {s t : State},
    Executes s (targets.map Instr.call ++ List.replicate targets.length Instr.ret) t →
      CameBack s t ∧ (targets ≠ [] → t.pc = s.pc + 2) := by
  induction targets with
  | nil =>
    intro s t h
    obtain rfl : t = s := executes_nil_iff.mp h
    exact ⟨CameBack.refl t, fun hne => absurd rfl hne⟩
  | cons nnn targets ih =>
    intro s t h
    rw [List.length_cons, List.replicate_succ', List.map_cons, List.cons_append, ← List.append_assoc] at h
    obtain ⟨a, hcall, hsa, hinner⟩ := executes_cons_iff.mp h
    obtain ⟨b, hab, hlast⟩ := exists_executes_of_append hinner
    obtain ⟨t', hret, hbt, hnil⟩ := executes_cons_iff.mp hlast
    obtain rfl : t = t' := executes_nil_iff.mp hnil
    exact (cameBack_of_call_ret hcall hsa (ih hab).1 hret hbt).imp_right fun hpc _ => hpc

/-- Settles O29, by induction on the nesting: `cameBack_of_calls_rets`. A run that completes has had the room. -/
theorem callsAndReturnsPair : Obligations.CallsAndReturnsPair := by
  intro s t targets hne _ h
  obtain ⟨hback, hpc⟩ := cameBack_of_calls_rets targets h
  exact ⟨hpc hne, hback.sp, hback.kept, hback.live⟩

end Sys2Proof.Machine
end
